-- ==== Sys2Proof/Word.lean ====
section
/-! DEFINITION. The sizes of the values the display driver handles. A GPIO line identifier (LineId
of R12) is a natural number, and its Lean type is Nat. -/

namespace Sys2Proof

/-- An 8-bit value: a segment mask (R100) or a character code (R111). -/
abbrev Byte := BitVec 8

/-- A 32-bit word of the command port (R130). -/
abbrev Word := BitVec 32

/-- The 16-bit VALUE field of a response (R150). -/
abbrev Value := BitVec 16

end Sys2Proof
end

