-- ==== Sys2Proof/Syntax.lean ====
section
/-! DEFINITION. The commands of the block, one constructor per row of spec/opcode_table.json (R132). -/

namespace Sys2Proof

/-- A decoded command with its operands assembled as R133 says. -/
inductive Instr where
  /-- LOOKUP c (R160). -/
  | lookup (c : Byte)
  /-- SETDIGIT i, c (R200). -/
  | setdigit (i : Nat) (c : Byte)
  /-- SETSEG i, s (R205); `g` is the segment index s. -/
  | setseg (i g : Nat)
  /-- SETCOMMA i (R210). -/
  | setcomma (i : Nat)
  /-- SETSTR t (R230). -/
  | setstr (t : List Byte)
  /-- REFRESH (R273). -/
  | refresh
  /-- CONFIG pol, on, dly, digs, segs (R180): the durations are signed (R133). -/
  | config (pol : BitVec 2) (on dly : Int) (digs segs : List Nat)
  deriving DecidableEq, Repr

end Sys2Proof
end

