-- ==== Sys2Proof/WellFormed.lean ====
section
/-! DEFINITION. Which commands the command port can express: each operand fits the field that carries it (R131, R133). -/

namespace Sys2Proof

/-- A digit index or a digit count fits the 12-bit IDX field (R131). -/
def fitsIdx (i : Nat) : Bool := decide (i < 4096)

/-- A segment index or a segment count fits the 8-bit B field (R131). -/
def fitsB (g : Nat) : Bool := decide (g < 256)

/-- A text length fits the 16-bit L field (R131). -/
def fitsLen (n : Nat) : Bool := decide (n < 65536)

/-- A duration is a signed 32-bit payload word (R133). -/
def fitsSigned (t : Int) : Bool := decide (-(2 ^ 31) ≤ t ∧ t < 2 ^ 31)

/-- A line identifier is an unsigned 32-bit payload word (R133). -/
def fitsWord (l : Nat) : Bool := decide (l < 2 ^ 32)

/-- Every operand fits its field. -/
def Instr.wellFormed : Instr → Bool
  | .lookup _ => true
  | .setdigit i _ => fitsIdx i
  | .setseg i g => fitsIdx i && fitsB g
  | .setcomma i => fitsIdx i
  | .setstr t => fitsLen t.length
  | .refresh => true
  | .config _ on dly digs segs =>
    fitsSigned on && fitsSigned dly && fitsIdx digs.length && fitsB segs.length && digs.all fitsWord &&
      segs.all fitsWord

end Sys2Proof
end

