-- ==== Sys2Proof/Decode.lean ====
section
/-! DEFINITION. The command port's encoding (R130 to R144): the decoder, total on any words, and after it an encoder. -/

namespace Sys2Proof

/-- OP, bits 31:28 of a command word (R131). -/
def wordOp (w : Word) : BitVec 4 := w.extractLsb' 28 4

/-- IDX, bits 27:16 (R131). -/
def wordIdx (w : Word) : BitVec 12 := w.extractLsb' 16 12

/-- B, bits 15:8 (R131). -/
def wordB (w : Word) : Byte := w.extractLsb' 8 8

/-- C, bits 7:0 (R131). -/
def wordC (w : Word) : Byte := w.extractLsb' 0 8

/-- L, bits 15:0, the text length of SETSTR (R131). -/
def wordLen (w : Word) : BitVec 16 := w.extractLsb' 0 16

/-- How many payload words follow a command word, told from the command word alone (R141): ceil(L/4) for SETSTR,
2 + N + S for CONFIG, none otherwise. -/
def payloadLength (w : Word) : Nat :=
  match (wordOp w).toNat with
  | 5 => ((wordLen w).toNat + 3) / 4
  | 7 => 2 + (wordIdx w).toNat + (wordB w).toNat
  | _ => 0

/-- The four bytes of a payload word, low byte first (R136). -/
def wordBytes (w : Word) : List Byte :=
  [w.extractLsb' 0 8, w.extractLsb' 8 8, w.extractLsb' 16 8, w.extractLsb' 24 8]

/-- One command from its command word and its whole payload (R144). `none` is IllegalCommand: a reserved OP (R142), a
nonzero reserved field or nonzero padding (R143). -/
def decodeCommand (w : Word) (payload : List Word) : Option Instr :=
  match (wordOp w).toNat with
  | 1 => if w.extractLsb' 8 20 = 0 then some (.lookup (wordC w)) else none
  | 2 => if wordB w = 0 then some (.setdigit (wordIdx w).toNat (wordC w)) else none
  | 3 => if wordC w = 0 then some (.setseg (wordIdx w).toNat (wordB w).toNat) else none
  | 4 => if wordLen w = 0 then some (.setcomma (wordIdx w).toNat) else none
  | 5 =>
    let bytes := payload.flatMap wordBytes
    let len := (wordLen w).toNat
    if wordIdx w = 0 ∧ (bytes.drop len).all (· == 0) = true then some (.setstr (bytes.take len)) else none
  | 6 => if w.extractLsb' 0 28 = 0 then some .refresh else none
  | 7 =>
    let n := (wordIdx w).toNat
    let k := (wordB w).toNat
    if w.extractLsb' 2 6 = 0 then
      some (.config (w.extractLsb' 0 2) (payload.getD 0 0).toInt (payload.getD 1 0).toInt
        (((payload.drop 2).take n).map BitVec.toNat) (((payload.drop (2 + n)).take k).map BitVec.toNat))
    else none
  | _ => none

/-- What the decoder makes of the words that have arrived. -/
inductive Decoded where
  /-- The next command has not wholly arrived: its checks are made only after the whole command has (R143). -/
  | incomplete
  /-- A whole command that raises IllegalCommand (R142, R143), its OP, and the words after it. -/
  | illegal (op : BitVec 4) (rest : List Word)
  /-- A whole command and the words after it. -/
  | command (i : Instr) (rest : List Word)
  deriving DecidableEq, Repr

/-- Decode the first command of a stream of words (R141, R144). An illegal command is consumed with its payload. -/
def decode : List Word → Decoded
  | [] => .incomplete
  | w :: ws =>
    let k := payloadLength w
    if ws.length < k then .incomplete
    else
      match decodeCommand w (ws.take k) with
      | some i => .command i (ws.drop k)
      | none => .illegal (wordOp w) (ws.drop k)

/-! The encoder, written from the same tables (R131 to R140). -/

/-- A command word from its four fields (R131, R135). -/
def commandWord (op : BitVec 4) (idx : BitVec 12) (b c : Byte) : Word :=
  op.setWidth 32 <<< 28 ||| idx.setWidth 32 <<< 16 ||| b.setWidth 32 <<< 8 ||| c.setWidth 32

/-- A payload word from its four bytes, the lowest first (R136). -/
def packWord (a b c d : Byte) : Word :=
  d.setWidth 32 <<< 24 ||| c.setWidth 32 <<< 16 ||| b.setWidth 32 <<< 8 ||| a.setWidth 32

/-- The payload words of a text: four characters a word, the first in the low byte, padding zero (R136). -/
def packText : List Byte → List Word
  | [] => []
  | [a] => [packWord a 0 0 0]
  | [a, b] => [packWord a b 0 0]
  | [a, b, c] => [packWord a b c 0]
  | a :: b :: c :: d :: rest => packWord a b c d :: packText rest

/-- The words of a command (R134 to R140). -/
def encode : Instr → List Word
  | .lookup c => [commandWord 1 0 0 c]
  | .setdigit i c => [commandWord 2 (BitVec.ofNat 12 i) 0 c]
  | .setseg i g => [commandWord 3 (BitVec.ofNat 12 i) (BitVec.ofNat 8 g) 0]
  | .setcomma i => [commandWord 4 (BitVec.ofNat 12 i) 0 0]
  | .setstr t =>
    commandWord 5 0 (BitVec.ofNat 8 (t.length / 256)) (BitVec.ofNat 8 t.length) :: packText t
  | .refresh => [commandWord 6 0 0 0]
  | .config pol on dly digs segs =>
    commandWord 7 (BitVec.ofNat 12 digs.length) (BitVec.ofNat 8 segs.length) (pol.setWidth 8) ::
      BitVec.ofInt 32 on :: BitVec.ofInt 32 dly :: (digs.map (BitVec.ofNat 32) ++ segs.map (BitVec.ofNat 32))

/-! The opcode table numbers a command's bits from bit 0 of its first word. -/

/-- The words of the command whose first `nbits` bits are `w` and whose other bits are zero: the command word and as many
payload words as it asks for. -/
def tableWords (nbits w : Nat) : List Word :=
  let bits := w % 2 ^ nbits
  let head := BitVec.ofNat 32 bits
  head :: (List.range (payloadLength head)).map (fun j => BitVec.ofNat 32 (bits >>> (32 * (j + 1))))

/-- The command the decoder reads from a row's bits. -/
def decodeTableWord (nbits w : Nat) : Option Instr :=
  match decode (tableWords nbits w) with
  | .command i _ => some i
  | _ => none

end Sys2Proof
end

