-- ==== Sys2Proof/Config.lean ====
section
/-! DEFINITION. The parameters the spec leaves open (R12), which a model takes as an argument. `step` takes no argument
but the state, so the state carries them (`State.config`), as plain data that no step writes: a statement about every
state is a statement about every choice of them. -/

namespace Sys2Proof

/-- The parameters of R12, and the lines other blocks hold (R335). -/
structure Config where
  /-- MAX_DIGITS, the largest digit count (R12, D29). -/
  maxDigits : Nat
  /-- LINE_COUNT, how many line identifiers the backend accepts (R12, D18). -/
  lineCount : Nat
  /-- ASYNC_WRITER, whether a writer agent exists (R12, D27). -/
  asyncWriter : Bool
  /-- The lines that other blocks have claimed (R335, D33). -/
  heldElsewhere : List Nat
  deriving DecidableEq, Repr

/-- The constraint the spec puts on the open parameters: `1 <= MAX_DIGITS <= 4095` (R12, D29). -/
abbrev Config.Legal (c : Config) : Prop := 1 ≤ c.maxDigits ∧ c.maxDigits ≤ 4095

/-- The parameters at reset. DESIGN CHOICE (log 3, unsafe): MAX_DIGITS and LINE_COUNT at the largest value the command
port can express, so that neither turns a command away; ASYNC_WRITER at the spec's default, false; no other block. -/
def Config.standard : Config :=
  { maxDigits := 4095, lineCount := 2 ^ 32, asyncWriter := false, heldElsewhere := [] }

end Sys2Proof
end

