-- ==== Sys2Proof/Machine/State.lean ====
section
/-! DEFINITION. The block's state (10_state.md), as plain data, and its value after power-up (R54). -/

namespace Sys2Proof.Machine

/-- The level of a GPIO line as the block sees it (R43). UNKNOWN is the spec's own third level: the line has not been
driven yet, and its real level is the platform's (R353). -/
inductive Level where
  | low
  | high
  | unknown
  deriving DecidableEq, Repr

/-- The sparse memory of line levels `lvl` (R43): (line, level) pairs, lines strictly rising, none UNKNOWN. An unlisted
line reads UNKNOWN. -/
abbrev Memory := List (Nat × Level)

/-- A set of lines: identifiers strictly rising (R15, R42). -/
abbrev LineSet := List Nat

/-- cfg.POL (R35). -/
inductive Polarity where
  | commonCathode
  | commonAnode
  deriving DecidableEq, Repr

/-- The configuration registers (R31 to R37). cfg.N is the length of `dig` (R32). -/
structure Cfg where
  /-- cfg.DIG (R33). -/
  dig : List Nat
  /-- cfg.SEG (R34). -/
  seg : List Nat
  /-- cfg.POL (R35). -/
  pol : Polarity
  /-- cfg.ON, microseconds (R36). -/
  on : Nat
  /-- cfg.DLY, microseconds (R37). -/
  dly : Nat
  deriving DecidableEq, Repr

/-- The lifecycle state `life` (R30). The configuration and the display buffer exist only once the block is CONSTRUCTED
(R31, R39), so the constructed state carries them. -/
inductive Life where
  | unconstructed
  | constructed (cfg : Cfg) (buf : List Byte)
  deriving DecidableEq, Repr

/-- PHASES, the six phases of one digit, in order (R45). -/
inductive Phase where
  | digOn
  | segOn
  | holdOn
  | segOff
  | digOff
  | holdDly
  deriving DecidableEq, Repr

/-- The refresh state machine (R45): `busy d p` says that the next action is phase `p` of digit `d`. -/
inductive Fsm where
  | idle
  | busy (d : Nat) (p : Phase)
  deriving DecidableEq, Repr

/-- Who issues commands (R80). -/
inductive Agent where
  | caller
  | writer
  deriving DecidableEq, Repr

/-- The status of a response (R310); 9 to 15 are never produced, so they have no name here. -/
inductive Status where
  | ok
  | configurationError
  | rangeError
  | unsupportedCharacter
  | stringTooLong
  | tooManySeparators
  | illegalCommand
  | notConstructed
  | alreadyConstructed
  deriving DecidableEq, Repr

/-- The response that ends a command (R49, R150). -/
structure Response where
  status : Status
  data : Byte
  value : Value
  deriving DecidableEq, Repr

/-- One event of the trace (R50): a backend call (R15) or a response. -/
inductive Event where
  /-- ConfigureOutput(l). -/
  | configureOutput (l : Nat)
  /-- SetLines(S). -/
  | setLines (S : LineSet)
  /-- ClearLines(S). -/
  | clearLines (S : LineSet)
  /-- SleepUs(t). -/
  | sleepUs (t : Nat)
  /-- The response to a command of agent `a`. -/
  | response (a : Agent) (r : Response)
  deriving DecidableEq, Repr

/-- Where an agent stands inside a command of several atomic steps (R76, R80). -/
inductive Task where
  /-- Inside no such command. -/
  | none
  /-- SETSEG i, g has read `v`, and its write is next (R205). -/
  | segWrite (i g : Nat) (v : Byte)
  /-- SETSTR step 7: `chars` are to be rendered into digit `d` and those after it, then `dots` are to be merged (R238). -/
  | render (d : Nat) (chars : List Byte) (dots : List Nat)
  /-- SETSTR step 8: the digits `dots` still get their dot, and the read of the first is next (R239). -/
  | dotRead (dots : List Nat)
  /-- SETSTR step 8 has read `v` from digit `d`; its write is next, then `dots` (R239). -/
  | dotWrite (d : Nat) (v : Byte) (dots : List Nat)
  deriving DecidableEq, Repr

/-- Why the machine stops. The spec's errors are responses, never faults (R310, R322). -/
inductive Fault where
  /-- Raised by `runPhase` in a state that no run reaches: a pass is in progress and the digit it names is no digit of the
  configuration, or there is no configuration. Safe: the machine stops where the spec says nothing (log 10). -/
  | noSuchDigit
  deriving DecidableEq, Repr

/-- Why the model declines a command. -/
inductive Refusal where
  /-- Raised by an arm of `exec` whose command has no meaning yet (none is left). Safe. -/
  | notModelled (mnemonic : String)
  /-- Raised by CONFIG and REFRESH from the writer agent: "a model refuses such a command" (R80). Safe. -/
  | writerCommand
  /-- Raised by a CONFIG that passes checks 1 to 5 with a line at or above LINE_COUNT: "the model refuses the command"
  (R189). Safe. -/
  | lineOutOfRange
  /-- Raised by a CONFIG that passes checks 1 to 5 and claims a line another block holds (R335). Safe. -/
  | lineHeldElsewhere
  deriving DecidableEq, Repr

/-- The state of the block and of what stands at its ports. -/
structure State where
  /-- The parameters of R12; no step writes them (log 3). -/
  config : Config
  /-- life, with cfg and buf (R30 to R39). -/
  life : Life
  /-- claimed (R42). -/
  claimed : LineSet
  /-- lvl (R43). -/
  lvl : Memory
  /-- fsm (R45). -/
  fsm : Fsm
  /-- The trace, oldest event first (R50). -/
  trace : List Event
  /-- Where the caller stands inside a buffer command (R80). -/
  callerTask : Task
  /-- Where the writer stands inside a buffer command (R80). -/
  writerTask : Task
  /-- The words that have arrived on the command port, oldest first (R130, log 4). -/
  callerPort : List Word
  /-- The words of the writer's commands, oldest first (R80, log 5). -/
  writerPort : List Word
  /-- The model's own: the agent that moves in this step (log 2). -/
  turn : Agent
  /-- The model's own: the agents that move in the steps to come, then the caller (log 2). -/
  sched : List Agent
  deriving DecidableEq, Repr

/-- The state after power-up and before CONFIG (R54). The ports are empty, no command is in progress and the schedule is
empty: DESIGN CHOICE (logs 1, 2, 4, 5). -/
def State.reset : State :=
  { config := Config.standard, life := .unconstructed, claimed := [], lvl := [], fsm := .idle, trace := [],
    callerTask := .none, writerTask := .none, callerPort := [], writerPort := [], turn := .caller, sched := [] }

end Sys2Proof.Machine
end

