-- ==== Sys2Proof/Machine/Flags.lean ====
section
/-! DEFINITION. The block has no flags and no condition codes (R49): what a command reports is its response. Here are the
status codes and the response word. -/

namespace Sys2Proof.Machine

/-- The numeric status codes (R310). -/
def Status.code : Status → BitVec 4
  | .ok => 0
  | .configurationError => 1
  | .rangeError => 2
  | .unsupportedCharacter => 3
  | .stringTooLong => 4
  | .tooManySeparators => 5
  | .illegalCommand => 6
  | .notConstructed => 7
  | .alreadyConstructed => 8

/-- The response word VALUE[31:16] DATA[15:8] 0[7:4] STATUS[3:0] (R150); bits 7:4 stay 0. -/
def Response.word (r : Response) : Word :=
  r.value.setWidth 32 <<< 16 ||| r.data.setWidth 32 <<< 8 ||| r.status.code.setWidth 32

end Sys2Proof.Machine
end

