-- ==== Sys2Proof/Machine/GlyphRom.lean ====
section
/-! DEFINITION. The glyph ROM (R110 to R115): a fixed function of an 8-bit character code, with no state (R72, R114). -/

namespace Sys2Proof.Machine

/-- The mask of a literal written as the source writes it, segment A first (R101): the literal's first digit is bit 0 of
the mask, so the mask is the literal read backwards. -/
def maskOfLiteral (a : BitVec 8) : Byte :=
  (List.range 8).foldl (fun m s => if a.getLsbD (7 - s) then m ||| (1#8 <<< s) else m) 0#8

/-- The rows of R110 for the digits: the code and the literal in bit order A..P. -/
def glyphDigits : List (Byte × BitVec 8) :=
  [
    (0x30, 0b11111100), (0x31, 0b01100000), (0x32, 0b11011010), (0x33, 0b11110010), (0x34, 0b01100110),
    (0x35, 0b10110110), (0x36, 0b10111110), (0x37, 0b11100000), (0x38, 0b11111110), (0x39, 0b11110110)
  ]

/-- The rows of R110 for the letters. -/
def glyphLetters : List (Byte × BitVec 8) :=
  [
    (0x41, 0b11101110), (0x42, 0b00111110), (0x43, 0b10011100), (0x44, 0b01111010), (0x45, 0b10011110),
    (0x46, 0b10001110), (0x47, 0b10111100), (0x48, 0b01101110), (0x49, 0b00001100), (0x4A, 0b01110000),
    (0x4B, 0b01101110), (0x4C, 0b00011100), (0x4D, 0b00000000), (0x4E, 0b00101010), (0x4F, 0b11111100),
    (0x50, 0b11001110), (0x51, 0b11100110), (0x52, 0b00001010), (0x53, 0b10110110), (0x54, 0b00011110),
    (0x55, 0b01111100), (0x56, 0b01111100), (0x57, 0b00000000), (0x58, 0b01101110), (0x59, 0b01110110),
    (0x5A, 0b11011010)
  ]

/-- The rows of R110 for space, `-`, `.`, `*` and `_`. -/
def glyphMarks : List (Byte × BitVec 8) :=
  [
    (0x20, 0b00000000), (0x2D, 0b00000010), (0x2E, 0b00000001), (0x2A, 0b11000110), (0x5F, 0b00010000)
  ]

/-- The 41 rows of R110. -/
def glyphTable : List (Byte × BitVec 8) := glyphDigits ++ glyphLetters ++ glyphMarks

/-- ROM(c): the mask of a supported code, and nothing for the other 215 codes (R110, R112, R161). -/
def glyph (c : Byte) : Option Byte := (glyphTable.lookup c).map maskOfLiteral

/-- The ROM's VALID output (R114). -/
def glyphValid (c : Byte) : Bool := (glyph c).isSome

/-- The ROM's MASK output, 0x00 when VALID is 0 (R114). -/
def glyphMask (c : Byte) : Byte := (glyph c).getD 0

end Sys2Proof.Machine
end

