-- ==== Sys2Proof/Machine/Operands.lean ====
section
/-! DEFINITION. What the commands compute from their operands: index ranges, polarity levels, sets of segment lines, the
checks of CONFIG and the plan of SETSTR. None of it reads or writes the machine. -/

namespace Sys2Proof.Machine

/-- cfg.N, the digit count: the length of the digit-line list (R32). -/
def Cfg.digits (cfg : Cfg) : Nat := cfg.dig.length

/-- Every line of a configuration, digit lines first (R42). -/
def Cfg.lines (cfg : Cfg) : List Nat := cfg.dig ++ cfg.seg

/-! ### Polarity (R270) -/

/-- The opposite level. UNKNOWN has none and stays; no line is ever driven to it. -/
def Level.opposite : Level → Level
  | .low => .high
  | .high => .low
  | .unknown => .unknown

/-- digitActive(p) (R270). -/
def Polarity.digitActive : Polarity → Level
  | .commonCathode => .low
  | .commonAnode => .high

/-- segActive(p) (R270). -/
def Polarity.segActive : Polarity → Level
  | .commonCathode => .high
  | .commonAnode => .low

/-- digitInactive(p) (R270). -/
def Polarity.digitInactive (p : Polarity) : Level := p.digitActive.opposite

/-- segInactive(p) (R270). -/
def Polarity.segInactive (p : Polarity) : Level := p.segActive.opposite

/-- The polarity that a two-bit POL code names, if any (R35, R140). -/
def polarityOf (pol : BitVec 2) : Option Polarity :=
  if pol = 0 then some .commonCathode else if pol = 1 then some .commonAnode else none

/-! ### Sets of lines (R15) -/

/-- Add a line to a set. -/
def LineSet.insert (l : Nat) : LineSet → LineSet
  | [] => [l]
  | k :: ks => if l < k then l :: k :: ks else if l = k then k :: ks else k :: LineSet.insert l ks

/-- The set of the lines of a list. -/
def LineSet.ofList (ls : List Nat) : LineSet := ls.foldl (fun S l => LineSet.insert l S) []

/-- The canonical form of a set of lines: strictly rising. -/
abbrev LineSet.wf (S : LineSet) : Prop := S.Pairwise (· < ·)

/-- `[x | (x, s)]` over the segment lines whose mask bit s is 1, s counting from `s` on (R101, R277). -/
def litLinesFrom (m : Byte) : Nat → List Nat → List Nat
  | _, [] => []
  | s, l :: ls => if m.getLsbD s then l :: litLinesFrom m (s + 1) ls else litLinesFrom m (s + 1) ls

/-- L_d, the set of segment lines whose bit of the mask is 1 (R274, R277). -/
def Cfg.litSegs (cfg : Cfg) (m : Byte) : LineSet := LineSet.ofList (litLinesFrom m 0 cfg.seg)

/-- ALLSEG, the set of all segment lines (R274). -/
def Cfg.allSegs (cfg : Cfg) : LineSet := LineSet.ofList cfg.seg

/-! ### CONFIG's checks (R181, R182) -/

/-- The number of the first of checks 1 to 5 that fails, if one does (R181, R182). -/
def configCheck (maxDigits : Nat) (pol : BitVec 2) (on dly : Int) (digs segs : List Nat) : Option Value :=
  if segs.length ≠ 8 then some 1
  else if digs.length < 1 ∨ maxDigits < digs.length then some 2
  else if on < 0 then some 3
  else if dly < 0 then some 4
  else if (polarityOf pol).isNone then some 5
  else none

/-- The configuration that a CONFIG whose checks pass writes (R180, R184). -/
def configOf (pol : BitVec 2) (on dly : Int) (digs segs : List Nat) : Cfg :=
  { dig := digs, seg := segs, pol := (polarityOf pol).getD .commonCathode, on := on.toNat, dly := dly.toNat }

/-! ### SETSTR's text (R231 to R239) -/

/-- `,` or `.` (R17). -/
def isSep (x : Byte) : Bool := x == 0x2C || x == 0x2E

/-- The code of a space (R17). -/
def spaceCode : Byte := 0x20

/-- The code of `.` (R17). -/
def dotCode : Byte := 0x2E

/-- Step 4: a text that starts with a separator gets a space before it (R234). -/
def leadSpace : List Byte → List Byte
  | [] => []
  | x :: xs => if isSep x then spaceCode :: x :: xs else x :: xs

/-- Step 5: a space between every two adjacent separators (R235). -/
def splitSeps : List Byte → List Byte
  | [] => []
  | [x] => [x]
  | x :: y :: ys =>
    if isSep x && isSep y then x :: spaceCode :: splitSeps (y :: ys) else x :: splitSeps (y :: ys)

/-- How many separators a text has (R232). -/
def sepCount (t : List Byte) : Nat := (t.filter isSep).length

/-- Step 7: the text without its separators, in order (R237). -/
def renderedChars (v : List Byte) : List Byte := v.filter (fun x => !isSep x)

/-- Step 8: the target digit of each separator, left to right: the separator at position `p`, the n-th counting from 1,
has the target `p - n` (R239). `n` here counts the separators before it. After steps 4 and 5 the difference is never
negative (R242), so the subtraction of natural numbers is exact. -/
def dotTargetsFrom (p n : Nat) : List Byte → List Nat
  | [] => []
  | x :: xs => if isSep x then (p - (n + 1)) :: dotTargetsFrom (p + 1) (n + 1) xs else dotTargetsFrom (p + 1) n xs

/-- The text after steps 4 and 5 (R234, R235). -/
def spacedText (t : List Byte) : List Byte := splitSeps (leadSpace t)

/-- The check of steps 1, 2, 3 and 6 that fails first, if one does, for `n` digits: the status and the step's number
(R231, R232, R233, R236). -/
def textCheck (n : Nat) (t : List Byte) : Option (Status × Value) :=
  let v := spacedText t
  if 2 * n < t.length then some (.stringTooLong, 1)
  else if n < sepCount t then some (.tooManySeparators, 2)
  else if n < t.length - sepCount t then some (.stringTooLong, 3)
  else if 2 * n < v.length ∨ n < v.length - sepCount v then some (.tooManySeparators, 6)
  else none

/-- The characters that step 7 renders into digits 0, 1, … (R237, R238). -/
def textChars (t : List Byte) : List Byte := renderedChars (spacedText t)

/-- The digits that get a dot in step 8, in order (R239). -/
def textDots (t : List Byte) : List Nat := dotTargetsFrom 0 0 (spacedText t)

end Sys2Proof.Machine
end

