-- ==== Sys2Proof/Machine/Ops.lean ====
section
/-! DEFINITION. The named operations on the line memory, the trace, the buffer and the ports, and the one shared way a
command ends in an error. -/

namespace Sys2Proof.Machine

/-! ### The line memory (R43) -/

/-- lvl[l]: an unlisted line is UNKNOWN (R43). -/
def Memory.read (m : Memory) (l : Nat) : Level :=
  match m with
  | [] => .unknown
  | (k, v) :: rest => if k = l then v else Memory.read rest l

/-- Put a level in its place. -/
def Memory.insert (l : Nat) (v : Level) : Memory → Memory
  | [] => [(l, v)]
  | (k, w) :: rest =>
    if l < k then (l, v) :: (k, w) :: rest
    else if l = k then (l, v) :: rest
    else (k, w) :: Memory.insert l v rest

/-- lvl[l] <- v, keeping the canonical form: an UNKNOWN line is not listed. -/
def Memory.write (m : Memory) (l : Nat) (v : Level) : Memory :=
  if v = .unknown then m.filter (fun c => c.1 != l) else Memory.insert l v m

/-- Every line of a set to one level; the other lines keep theirs (R43). -/
def Memory.writeAll (m : Memory) (S : LineSet) (v : Level) : Memory := S.foldl (fun m l => Memory.write m l v) m

/-- The canonical form: lines strictly rising, none listed as UNKNOWN. -/
abbrev Memory.wf (m : Memory) : Prop := m.Pairwise (fun a b => a.1 < b.1) ∧ ∀ c ∈ m, c.2 ≠ .unknown

/-! ### Backend calls and the trace (R15, R43, R50) -/

/-- What an event does to the line levels (R43). -/
def Event.levels (e : Event) (m : Memory) : Memory :=
  match e with
  | .setLines S => m.writeAll S .high
  | .clearLines S => m.writeAll S .low
  | .configureOutput _ => m
  | .sleepUs _ => m
  | .response _ _ => m

/-- What an event does to the claimed lines (R42, R43). -/
def Event.claims (e : Event) (c : LineSet) : LineSet :=
  match e with
  | .configureOutput l => LineSet.insert l c
  | .setLines _ => c
  | .clearLines _ => c
  | .sleepUs _ => c
  | .response _ _ => c

/-- Drive(S, HIGH) is SetLines(S) and Drive(S, LOW) is ClearLines(S) (R15, R271). No call drives a line UNKNOWN. -/
def drive (S : LineSet) : Level → Event
  | .high => .setLines S
  | .low => .clearLines S
  | .unknown => .clearLines S

/-- One event is appended to the trace and takes its effect at once (R15, R86). -/
def State.emit (e : Event) (s : State) : State :=
  { s with trace := s.trace ++ [e], lvl := e.levels s.lvl, claimed := e.claims s.claimed }

/-- Several events in order. -/
def State.emitAll (es : List Event) (s : State) : State := es.foldl (fun s e => s.emit e) s

/-! ### Ending a command (R16, R49, R322) -/

/-- The response that ends the command of the agent whose turn it is (R49). -/
def State.respond (r : Response) (s : State) : State := s.emit (.response s.turn r)

/-- respond(OK, data) (R16). -/
def State.answer (data : Byte) (s : State) : State := s.respond { status := .ok, data := data, value := 0 }

/-- raise E(value) (R16, R322): the command ends at once with status E. Nothing is saved, no mode changes, control goes
nowhere, and every write made before stays. There is no return from an error (R323): the next command runs as if the
error had not happened. -/
def State.raise (e : Status) (value : Value) (s : State) : State :=
  s.respond { status := e, data := 0, value := value }

/-! ### The display buffer (R38 to R41) -/

/-- buf, which does not exist before CONFIG (R39). -/
def State.buf (s : State) : List Byte :=
  match s.life with
  | .unconstructed => []
  | .constructed _ buf => buf

/-- cfg, which holds no value before CONFIG (R31). -/
def State.cfg? (s : State) : Option Cfg :=
  match s.life with
  | .unconstructed => none
  | .constructed cfg _ => some cfg

/-- buf[i], one atomic 8-bit read (R41). -/
def State.bufRead (i : Nat) (s : State) : Byte := s.buf.getD i 0

/-- buf[i] <- v, one atomic 8-bit write (R41). Every other entry keeps its value (R211). -/
def State.bufWrite (i : Nat) (v : Byte) (s : State) : State :=
  match s.life with
  | .unconstructed => s
  | .constructed cfg buf => { s with life := .constructed cfg (buf.set i v) }

/-! ### What belongs to the agent whose turn it is (R80) -/

/-- Where the agent stands inside a command. -/
def State.task (s : State) : Task :=
  match s.turn with
  | .caller => s.callerTask
  | .writer => s.writerTask

/-- Move the agent inside its command. -/
def State.setTask (t : Task) (s : State) : State :=
  match s.turn with
  | .caller => { s with callerTask := t }
  | .writer => { s with writerTask := t }

/-- The words that have arrived for the agent's commands (R130). -/
def State.pending (s : State) : List Word :=
  match s.turn with
  | .caller => s.callerPort
  | .writer => s.writerPort

/-- Take words off the agent's port. -/
def State.setPending (ws : List Word) (s : State) : State :=
  match s.turn with
  | .caller => { s with callerPort := ws }
  | .writer => { s with writerPort := ws }

/-- Words arrive for an agent's commands: an input of the platform, at any moment between two steps (R130). -/
def State.offer (a : Agent) (ws : List Word) (s : State) : State :=
  match a with
  | .caller => { s with callerPort := s.callerPort ++ ws }
  | .writer => { s with writerPort := s.writerPort ++ ws }

/-- The turn passes to the next agent of the schedule, or to the caller when the schedule is empty. When ASYNC_WRITER is
false there is no writer (R80), and every turn is the caller's. -/
def State.beginTurn (s : State) : State :=
  match s.sched with
  | [] => { s with turn := .caller }
  | a :: rest => { s with turn := if s.config.asyncWriter then a else .caller, sched := rest }

/-- The refresh state machine as the agent sees it: a pass is the caller's (R283), and the writer has none (R80). -/
def State.pass (s : State) : Fsm :=
  match s.turn with
  | .caller => s.fsm
  | .writer => .idle

end Sys2Proof.Machine
end

