-- ==== Sys2Proof/Machine/Tasks.lean ====
section
/-! DEFINITION. Commands of several atomic steps: SETSEG's read and write (R205) and steps 7 and 8 of SETSTR (R238,
R239). Each buffer access is one atomic step (R80), and with a writer another agent's step may fall between two of them
(R76, R83). -/

namespace Sys2Proof.Machine

/-- The command has done its last atomic step: it answers OK. -/
def State.finishTask (s : State) : State := (s.setTask .none).answer 0

/-- The command ends in an error with what it wrote so far (R16). -/
def State.abortTask (e : Status) (value : Value) (s : State) : State := (s.setTask .none).raise e value

/-- Step 8 is next for the digits that still get a dot, or the command is done (R239). -/
def State.startDots (dots : List Nat) (s : State) : State :=
  match dots with
  | [] => s.finishTask
  | d :: ds => s.setTask (.dotRead (d :: ds))

/-- Step 7 is next for the characters left, or step 8 (R238). -/
def State.startRender (d : Nat) (chars : List Byte) (dots : List Nat) (s : State) : State :=
  match chars with
  | [] => s.startDots dots
  | c :: cs => s.setTask (.render d (c :: cs) dots)

/-- One character of step 7: a full replace by its glyph, or the error of a character that has none (R238, R240). DESIGN
CHOICE (log 1): with a writer that error is a step of the machine of its own, with no buffer access, after the step of the
last glyph written, or of the checks where there is none. -/
def State.renderChar (d : Nat) (c : Byte) (cs : List Byte) (dots : List Nat) (s : State) : State :=
  match glyph c with
  | none => s.abortTask .unsupportedCharacter (c.setWidth 16)
  | some m => (s.bufWrite d m).startRender (d + 1) cs dots

/-- One atomic step of the command the agent is in. -/
def resumeTask (s : State) : State :=
  match s.task with
  | .none => s
  | .segWrite i g v => (s.bufWrite i (v ||| (1#8 <<< g))).finishTask
  | .render _ [] dots => s.startDots dots
  | .render d (c :: cs) dots => s.renderChar d c cs dots
  | .dotRead [] => s.finishTask
  | .dotRead (d :: ds) => s.setTask (.dotWrite d (s.bufRead d) ds)
  | .dotWrite d v ds => (s.bufWrite d (v ||| 0x80#8)).startDots ds

/-- A number of atomic steps that suffices to end the command. -/
def Task.size : Task → Nat
  | .none => 0
  | .segWrite _ _ _ => 1
  | .render _ chars dots => chars.length + 2 * dots.length + 2
  | .dotRead dots => 2 * dots.length + 1
  | .dotWrite _ _ dots => 2 * dots.length + 2

/-- At most `k` atomic steps of the agent with nothing in between, up to the end of its command. -/
def drain : Nat → State → State
  | 0, s => s
  | k + 1, s =>
    match s.task with
    | .none => s
    | _ => drain k (resumeTask s)

/-- How a buffer command goes on after its first atomic step. With a writer each atomic step is a step of the machine, so
the command waits for its next turn; with none, nothing can fall between its atomic steps or see them (R80), and it runs
to its response (log 1). -/
def State.settle (s : State) : State :=
  if s.config.asyncWriter then s else drain s.task.size s

end Sys2Proof.Machine
end

