-- ==== Sys2Proof/Machine/Buffer.lean ====
section
/-! DEFINITION. SETDIGIT, SETSEG and SETCOMMA (42_buffer_ops.md). -/

namespace Sys2Proof.Machine

/-- One digit's mask is replaced by a glyph: the index is checked, then the character, then one atomic write (R200). -/
def State.setDigit (cfg : Cfg) (i : Nat) (c : Byte) (s : State) : State :=
  if cfg.digits ≤ i then s.raise .rangeError (BitVec.ofNat 16 i)
  else
    match glyph c with
    | none => s.raise .unsupportedCharacter (c.setWidth 16)
    | some m => (s.bufWrite i m).answer 0

/-- SETDIGIT i, c (R200); before CONFIG, NotConstructed with its OP (R316). -/
def execSetdigit (i : Nat) (c : Byte) (s : State) : Host.Outcome State Fault Refusal :=
  match s.life with
  | .unconstructed => .next (s.raise .notConstructed 2)
  | .constructed cfg _ => .next (s.setDigit cfg i c)

/-- SETSEG i, g (R205): both indices are checked, the digit's first; then an atomic read, and an atomic write of the value
with bit g set. DESIGN CHOICE (log 1): with a writer the checks are in the step of the read, the response in that of the
write. -/
def execSetseg (i g : Nat) (s : State) : Host.Outcome State Fault Refusal :=
  match s.life with
  | .unconstructed => .next (s.raise .notConstructed 3)
  | .constructed cfg _ =>
    if cfg.digits ≤ i then .next (s.raise .rangeError (BitVec.ofNat 16 i))
    else if 8 ≤ g then .next (s.raise .rangeError (BitVec.ofNat 16 g))
    else .next (s.setTask (.segWrite i g (s.bufRead i))).settle

/-- SETCOMMA i (R210): SETDIGIT's effect with `.`, so the digit's glyph is erased. -/
def execSetcomma (i : Nat) (s : State) : Host.Outcome State Fault Refusal :=
  match s.life with
  | .unconstructed => .next (s.raise .notConstructed 4)
  | .constructed cfg _ => .next (s.setDigit cfg i dotCode)

end Sys2Proof.Machine
end

