-- ==== Sys2Proof/Machine/Configure.lean ====
section
/-! DEFINITION. CONFIG (41_config.md). -/

namespace Sys2Proof.Machine

/-- One line is claimed and driven to a level (R186). -/
def claimCalls (v : Level) (l : Nat) : List Event := [.configureOutput l, drive [l] v]

/-- The backend calls of a successful CONFIG, in the order R186 fixes: digit lines in list order, then segment lines A to
P, each claimed and then driven to its inactive level. -/
def configCalls (cfg : Cfg) : List Event :=
  cfg.dig.flatMap (claimCalls cfg.pol.digitInactive) ++ cfg.seg.flatMap (claimCalls cfg.pol.segInactive)

/-- What a successful CONFIG does before it answers: the calls, the configuration, the cleared buffer, IDLE, CONSTRUCTED
(R180). It is one step (log 7). -/
def State.construct (cfg : Cfg) (s : State) : State :=
  { s.emitAll (configCalls cfg) with
    life := .constructed cfg (List.replicate cfg.digits 0), fsm := .idle }

/-- CONFIG (R180): AlreadyConstructed, then checks 1 to 5, then the lines the model refuses (R189, R335), then the
construction. The writer may not issue it (R80). -/
def execConfig (pol : BitVec 2) (on dly : Int) (digs segs : List Nat) (s : State) :
    Host.Outcome State Fault Refusal :=
  match s.turn, s.life with
  | .writer, _ => .refused .writerCommand
  | .caller, .constructed _ _ => .next (s.raise .alreadyConstructed 7)
  | .caller, .unconstructed =>
    match configCheck s.config.maxDigits pol on dly digs segs with
    | some k => .next (s.raise .configurationError k)
    | none =>
      if (digs ++ segs).any (fun l => decide (s.config.lineCount ≤ l)) then .refused .lineOutOfRange
      else if (digs ++ segs).any (fun l => s.config.heldElsewhere.contains l) then .refused .lineHeldElsewhere
      else .next ((s.construct (configOf pol on dly digs segs)).answer 0)

end Sys2Proof.Machine
end

