-- ==== Sys2Proof/Machine/Lookup.lean ====
section
/-! DEFINITION. LOOKUP (40_glyph_rom.md). -/

namespace Sys2Proof.Machine

/-- LOOKUP c (R160): the glyph as DATA, or UnsupportedCharacterError; legal in every lifecycle (R316). -/
def execLookup (c : Byte) (s : State) : Host.Outcome State Fault Refusal :=
  match glyph c with
  | none => .next (s.raise .unsupportedCharacter (c.setWidth 16))
  | some m => .next (s.answer m)

end Sys2Proof.Machine
end

