-- ==== Sys2Proof/Machine/Refresh.lean ====
section
/-! DEFINITION. REFRESH and the refresh state machine (44_refresh.md). -/

namespace Sys2Proof.Machine

/-- The backend call of phase `p` of the digit whose line is `l` and whose mask is `m` (R272). -/
def phaseCall (cfg : Cfg) (l : Nat) (m : Byte) : Phase → Event
  | .digOn => drive [l] cfg.pol.digitActive
  | .segOn => drive (cfg.litSegs m) cfg.pol.segActive
  | .holdOn => .sleepUs cfg.on
  | .segOff => drive cfg.allSegs cfg.pol.segInactive
  | .digOff => drive [l] cfg.pol.digitInactive
  | .holdDly => .sleepUs cfg.dly

/-- The phase after `p` of one digit, if there is one (R273). -/
def Phase.succ : Phase → Option Phase
  | .digOn => some .segOn
  | .segOn => some .holdOn
  | .holdOn => some .segOff
  | .segOff => some .digOff
  | .digOff => some .holdDly
  | .holdDly => none

/-- next(d, p) for a display of `n` digits (R273). -/
def nextFsm (n d : Nat) (p : Phase) : Fsm :=
  match p.succ with
  | some q => .busy d q
  | none => if d + 1 < n then .busy (d + 1) .digOn else .idle

/-- The state machine moves on; when the pass is over, REFRESH answers OK (R46, R273). DESIGN CHOICE (log 1): the move to
IDLE and the OK are in the step of the last HOLD_DLY, so no step of the writer falls between that hold and the OK; R80 and
R272 do not place the OK among the atomic steps. -/
def State.advance (f : Fsm) (s : State) : State :=
  match f with
  | .idle => ({ s with fsm := .idle } : State).answer 0
  | .busy d p => { s with fsm := .busy d p }

/-- One phase of a pass, one atomic step: one backend call, and at SEG_ON one read of the digit's entry before it (R272,
R276; no other phase's call depends on the mask). A pass whose digit does not exist is the model's own fault (log 10). -/
def runPhase (d : Nat) (p : Phase) (s : State) : Host.Outcome State Fault Refusal :=
  match s.life with
  | .unconstructed => .fault .noSuchDigit
  | .constructed cfg buf =>
    match cfg.dig[d]? with
    | none => .fault .noSuchDigit
    | some l => .next ((s.emit (phaseCall cfg l (buf.getD d 0) p)).advance (nextFsm cfg.digits d p))

/-- REFRESH (R273): the state machine leaves IDLE for the first phase of digit 0, and each later step performs one phase.
The writer may not issue it (R80). DESIGN CHOICE (log 1): the move to BUSY(0, DIG_ON) is a step of its own, with no backend
call and no buffer access; R80 and R272 do not place it among the atomic steps. -/
def execRefresh (s : State) : Host.Outcome State Fault Refusal :=
  match s.turn, s.life with
  | .writer, _ => .refused .writerCommand
  | .caller, .unconstructed => .next (s.raise .notConstructed 6)
  | .caller, .constructed _ _ => .next { s with fsm := .busy 0 .digOn }

end Sys2Proof.Machine
end

