-- ==== Sys2Proof/Machine/SetString.lean ====
section
/-! DEFINITION. SETSTR (43_setstring.md). -/

namespace Sys2Proof.Machine

/-- SETSTR t (R230): steps 1 to 6 write nothing (R240); then the characters and the dots, one atomic step each. DESIGN
CHOICE (log 1): with a writer the checks of steps 1 to 6 are a step of the machine of their own, with no buffer access, and
the first character's step comes after it; R80 does not place the checks. -/
def execSetstr (t : List Byte) (s : State) : Host.Outcome State Fault Refusal :=
  match s.life with
  | .unconstructed => .next (s.raise .notConstructed 5)
  | .constructed cfg _ =>
    match textCheck cfg.digits t with
    | some (e, value) => .next (s.raise e value)
    | none => .next (s.startRender 0 (textChars t) (textDots t)).settle

end Sys2Proof.Machine
end

