-- ==== Sys2Proof/Machine/Dispatch.lean ====
section
/-! DEFINITION. One arm per command of the opcode table. `exec i s`: the agent whose turn it is issues command `i`. -/

namespace Sys2Proof.Machine

def exec (i : Instr) (s : State) : Host.Outcome State Fault Refusal :=
  match i with
  | .lookup c => Sys2Proof.Machine.execLookup c s
  | .setdigit d c => Sys2Proof.Machine.execSetdigit d c s
  | .setseg d g => Sys2Proof.Machine.execSetseg d g s
  | .setcomma d => Sys2Proof.Machine.execSetcomma d s
  | .setstr t => Sys2Proof.Machine.execSetstr t s
  | .refresh => Sys2Proof.Machine.execRefresh s
  | .config pol on dly digs segs => Sys2Proof.Machine.execConfig pol on dly digs segs s

end Sys2Proof.Machine
end

