-- ==== Sys2Proof/Machine/Step.lean ====
section
/-! DEFINITION. One step of the machine. -/

namespace Sys2Proof.Machine

/-- One step: the next agent of the schedule moves. A pass in progress performs one phase, and the port is blocked
meanwhile (R283); a buffer command in progress performs one atomic step (R80); otherwise the next command is decoded and
issued (R130, R144). With no whole command on the port the block waits (R352, log 4). -/
def step (s : State) : Host.Outcome State Fault Refusal :=
  let s := s.beginTurn
  match s.pass, s.task with
  | .busy d p, _ => runPhase d p s
  | .idle, .none =>
    match decode s.pending with
    | .incomplete => .next s
    | .illegal op rest => .next ((s.setPending rest).raise .illegalCommand (op.setWidth 16))
    | .command i rest => exec i (s.setPending rest)
  | .idle, _ => .next (resumeTask s)

/-- The command whose first `nbits` bits are `w` (its other bits zero) comes next on the caller's port, ahead of what is
there, and the caller moves next with nothing in progress (log 4). -/
def State.withFetchWord (s : State) (nbits w : Nat) : State :=
  { s with
    callerPort := tableWords nbits w ++ s.callerPort, fsm := .idle, callerTask := .none, sched := .caller :: s.sched }

end Sys2Proof.Machine
end

