-- ==== Sys2Proof/Safety.lean ====
section
/-! DEFINITION. What the spec says of whole runs, as predicates on one state: functions of the trace (R50), the idle
invariant (R280), the one-digit rule (R281, R282), the lit pattern (R52), and the invariant of the state. -/

namespace Sys2Proof.Machine

/-! ### Functions of the trace (R50) -/

/-- lvl as a function of the trace (R50, R43). -/
def levelsOf (trace : List Event) : Memory := trace.foldl (fun m e => e.levels m) []

/-- claimed as a function of the trace (R42, R43). -/
def claimedOf (trace : List Event) : LineSet := trace.foldl (fun c e => e.claims c) []

/-- The duration of one event (R50). -/
def Event.hold : Event → Nat
  | .sleepUs t => t
  | .configureOutput _ => 0
  | .setLines _ => 0
  | .clearLines _ => 0
  | .response _ _ => 0

/-- The elapsed hold time: the sum of the durations of the SleepUs calls (R50, R326). -/
def holdSum (trace : List Event) : Nat := (trace.map Event.hold).sum

/-- A backend call, as opposed to a response (R50). -/
def Event.isCall : Event → Bool
  | .response _ _ => false
  | .configureOutput _ => true
  | .setLines _ => true
  | .clearLines _ => true
  | .sleepUs _ => true

/-- The backend calls of a trace, in order. -/
def callsOf (trace : List Event) : List Event := trace.filter Event.isCall

/-! ### Lines and light -/

/-- DistinctLines(cfg): all N + 8 identifiers pairwise different (R187). -/
abbrev Cfg.DistinctLines (cfg : Cfg) : Prop := cfg.lines.Nodup

/-- Quiet(cfg, lvl), the idle invariant (R280). -/
abbrev Quiet (cfg : Cfg) (lvl : Memory) : Prop :=
  (∀ l ∈ cfg.dig, lvl.read l = cfg.pol.digitInactive) ∧ ∀ l ∈ cfg.seg, lvl.read l = cfg.pol.segInactive

/-- Segment `g` of digit `d` emits light: both its lines are at their ACTIVE levels (R52). -/
def litAt (cfg : Cfg) (lvl : Memory) (d g : Nat) : Bool :=
  match cfg.dig[d]?, cfg.seg[g]? with
  | some l, some k => decide (lvl.read l = cfg.pol.digitActive ∧ lvl.read k = cfg.pol.segActive)
  | _, _ => false

/-- Digit `d` is selected: from its DIG_ON call to its DIG_OFF call (R281). -/
def Fsm.selects (f : Fsm) (d : Nat) : Bool :=
  match f with
  | .idle => false
  | .busy e p =>
    decide (e = d) &&
      match p with
      | .digOn => false
      | .segOn => true
      | .holdOn => true
      | .segOff => true
      | .digOff => true
      | .holdDly => false

/-- Segments may be ACTIVE: from SEG_ON's call to SEG_OFF's call (R282). -/
def Fsm.showsSegments : Fsm → Bool
  | .idle => false
  | .busy _ .digOn => false
  | .busy _ .segOn => false
  | .busy _ .holdOn => true
  | .busy _ .segOff => true
  | .busy _ .digOff => false
  | .busy _ .holdDly => false

/-- The levels of a configured block's lines at every point of a pass (R280, R281, R282): the selected digit and no other
is ACTIVE, and the segments show one mask while they may and are INACTIVE otherwise. -/
def LinesFollowPass (cfg : Cfg) (fsm : Fsm) (lvl : Memory) : Prop :=
  (∀ d l, cfg.dig[d]? = some l →
    lvl.read l = if fsm.selects d then cfg.pol.digitActive else cfg.pol.digitInactive) ∧
  ∃ m : Byte, (fsm.showsSegments = false → m = 0) ∧
    ∀ g k, cfg.seg[g]? = some k →
      lvl.read k = if m.getLsbD g then cfg.pol.segActive else cfg.pol.segInactive

/-- The display rule: a block configured with distinct lines has its lines where its state machine says (R280 to R282). -/
def State.DisplayRule (s : State) : Prop :=
  match s.life with
  | .unconstructed => True
  | .constructed cfg _ => cfg.DistinctLines → LinesFollowPass cfg s.fsm s.lvl

/-! ### The invariant of the state -/

/-- What CONFIG's checks leave of the configuration (R32, R34, R36, R37, R189). -/
def Cfg.Legal (c : Config) (cfg : Cfg) : Prop :=
  1 ≤ cfg.digits ∧ cfg.digits ≤ c.maxDigits ∧ cfg.seg.length = 8 ∧ cfg.on < 2 ^ 31 ∧ cfg.dly < 2 ^ 31 ∧
    ∀ l ∈ cfg.lines, l < c.lineCount

/-- The state machine names a digit of the display (R45). -/
def Fsm.InRange (n : Nat) : Fsm → Prop
  | .idle => True
  | .busy d _ => d < n

/-- A command in progress writes only entries of the buffer (R242). -/
def Task.InRange (n : Nat) : Task → Prop
  | .none => True
  | .segWrite i g _ => i < n ∧ g < 8
  | .render d chars dots => d + chars.length ≤ n ∧ ∀ t ∈ dots, t < n
  | .dotRead dots => ∀ t ∈ dots, t < n
  | .dotWrite d _ dots => d < n ∧ ∀ t ∈ dots, t < n

/-- What the lifecycle says of the rest of the state (R30, R31, R39, R42, R45, R54). -/
def State.LifecycleRule (s : State) : Prop :=
  match s.life with
  | .unconstructed => s.fsm = .idle ∧ s.callerTask = .none ∧ s.writerTask = .none ∧ callsOf s.trace = []
  | .constructed cfg buf =>
    cfg.Legal s.config ∧ buf.length = cfg.digits ∧ s.claimed = LineSet.ofList cfg.lines ∧
      s.fsm.InRange cfg.digits ∧ s.callerTask.InRange cfg.digits ∧ s.writerTask.InRange cfg.digits ∧
      (s.fsm ≠ .idle → s.callerTask = .none)

/-- The invariant: both sparse memories keep their canonical form, they are the functions of the trace that R50 says they
are, and the lifecycle rule holds. -/
structure State.Inv (s : State) : Prop where
  legalConfig : s.config.Legal
  levelsCanonical : s.lvl.wf
  claimsCanonical : LineSet.wf s.claimed
  levelsOfTrace : s.lvl = levelsOf s.trace
  claimsOfTrace : s.claimed = claimedOf s.trace
  lifecycle : s.LifecycleRule

/-! ### What a pass and a command answer -/

/-- The six calls of one digit of a pass, written out for each polarity as R274 writes them. -/
def digitCalls (cfg : Cfg) (l : Nat) (m : Byte) : List Event :=
  match cfg.pol with
  | .commonCathode =>
    [.clearLines [l], .setLines (cfg.litSegs m), .sleepUs cfg.on, .clearLines cfg.allSegs, .setLines [l],
      .sleepUs cfg.dly]
  | .commonAnode =>
    [.setLines [l], .clearLines (cfg.litSegs m), .sleepUs cfg.on, .setLines cfg.allSegs, .clearLines [l],
      .sleepUs cfg.dly]

/-- The trace of one pass over a buffer that is not written meanwhile: for each digit in order, its six calls (R274). -/
def passCalls (cfg : Cfg) (buf : List Byte) : List Event :=
  (List.range cfg.digits).flatMap (fun d => digitCalls cfg (cfg.dig.getD d 0) (buf.getD d 0))

/-- The call with SetLines and ClearLines exchanged (R286). -/
def Event.inverted : Event → Event
  | .setLines S => .clearLines S
  | .clearLines S => .setLines S
  | .configureOutput l => .configureOutput l
  | .sleepUs t => .sleepUs t
  | .response a r => .response a r

/-- The response to the agent whose turn it is (R49). -/
def State.reply (s : State) (status : Status) (data : Byte) (value : Value) : Event :=
  .response s.turn { status := status, data := data, value := value }

/-- The state after a command that only answers: one response more on the trace (R322). -/
def State.answered (s : State) (status : Status) (data : Byte) (value : Value) : State :=
  { s with trace := s.trace ++ [s.reply status data value] }

/-! ### What a buffer command leaves alone -/

/-- The commands that write at most the buffer (R40): none of them makes a backend call. -/
def bufferCommand : Instr → Bool
  | .lookup _ => true
  | .setdigit _ _ => true
  | .setseg _ _ => true
  | .setcomma _ => true
  | .setstr _ => true
  | .refresh => false
  | .config _ _ _ _ _ => false

/-- Where the agent that does not move stands inside a command. -/
def State.otherTask (s : State) : Task :=
  match s.turn with
  | .caller => s.writerTask
  | .writer => s.callerTask

/-- `t` differs from `s` at most in the entries of the buffer, in the progress of the agent that moves, and by responses
added to the trace: no configuration field, line, port, phase or other agent changes, and no backend call is made (R40,
R211). -/
structure BufferFrame (s t : State) : Prop where
  config : t.config = s.config
  cfg : t.cfg? = s.cfg?
  length : t.buf.length = s.buf.length
  claimed : t.claimed = s.claimed
  lvl : t.lvl = s.lvl
  fsm : t.fsm = s.fsm
  calls : callsOf t.trace = callsOf s.trace
  callerPort : t.callerPort = s.callerPort
  writerPort : t.writerPort = s.writerPort
  turn : t.turn = s.turn
  sched : t.sched = s.sched
  otherTask : t.otherTask = s.otherTask

end Sys2Proof.Machine
end

