-- ==== Sys2Proof/Certificates/Slice0/Obligations.lean ====
section
/-! DEFINITION. The statements about the model, from the spec's numbered rules. Every statement holds for every choice of
the parameters of R12 (`State.config`) and for every schedule (`State.sched`) unless it says otherwise. -/

open Sys2Proof Sys2Proof.Machine

/-! ### Encoding (30_encoding.md) -/

/-- The example words of R134 to R140 and of the decoder's vectors decode to what they stand for. -/
def Obligations.ExampleWordsDecode : Prop :=
  decode [0x10000041] = .command (.lookup 0x41) [] ∧
  decode [0x20020037] = .command (.setdigit 2 0x37) [] ∧
  decode [0x30000700] = .command (.setseg 0 7) [] ∧
  decode [0x40010000] = .command (.setcomma 1) [] ∧
  decode [0x50000005, 0x34312E33, 0x00000031] = .command (.setstr [0x33, 0x2E, 0x31, 0x34, 0x31]) [] ∧
  decode [0x60000000] = .command .refresh [] ∧
  decode [0x70010801, 0, 0xFFFFFFFF, 8, 0, 1, 2, 3, 4, 5, 6, 7, 0x60000000] =
    .command (.config 1 0 (-1) [8] [0, 1, 2, 3, 4, 5, 6, 7]) [0x60000000] ∧
  decode [0x90000000] = .illegal 9 [] ∧
  decode [0x50010001, 0x00000000, 0x60000000] = .illegal 5 [0x60000000]

/-- R134, R135, R137: the words of the one-word commands, for every operand, and what they decode to. -/
def Obligations.OneWordCommandsDecode : Prop :=
  ∀ (rest : List Word) (c : Byte) (i g : Nat), i < 4096 → g < 256 →
    decode ((0x10000000 ||| c.setWidth 32) :: rest) = .command (.lookup c) rest ∧
    decode ((0x20000000 ||| BitVec.ofNat 32 i <<< 16 ||| c.setWidth 32) :: rest) = .command (.setdigit i c) rest ∧
    decode ((0x30000000 ||| BitVec.ofNat 32 i <<< 16 ||| BitVec.ofNat 32 g <<< 8) :: rest) =
      .command (.setseg i g) rest ∧
    decode ((0x40000000 ||| BitVec.ofNat 32 i <<< 16) :: rest) = .command (.setcomma i) rest ∧
    decode (0x60000000 :: rest) = .command .refresh rest

/-- Every well-formed command survives the port: the words that encode it decode to it, with nothing of the words after
them taken. -/
def Obligations.DecodeEncodeAgree : Prop :=
  ∀ (i : Instr) (rest : List Word), i.wellFormed = true → decode (encode i ++ rest) = .command i rest

/-- Each command has one encoding, and the decoder gives only well-formed commands. -/
def Obligations.EncodeDecodeAgree : Prop :=
  ∀ (ws rest : List Word) (i : Instr), decode ws = .command i rest → i.wellFormed = true ∧ ws = encode i ++ rest

/-- R142, R143: a whole command is illegal exactly when its OP is reserved, a field marked 0 is not zero, or a padding byte
of SETSTR is not zero; it is then consumed with its payload. -/
def Obligations.IllegalExactlyWhenReserved : Prop :=
  ∀ (w : Word) (ws : List Word), payloadLength w ≤ ws.length →
    ((∃ op rest, decode (w :: ws) = .illegal op rest) ↔
      wordOp w = 0 ∨ 8 ≤ (wordOp w).toNat ∨
      (wordOp w = 1 ∧ (wordIdx w ≠ 0 ∨ wordB w ≠ 0)) ∨
      (wordOp w = 2 ∧ wordB w ≠ 0) ∨
      (wordOp w = 3 ∧ wordC w ≠ 0) ∨
      (wordOp w = 4 ∧ (wordB w ≠ 0 ∨ wordC w ≠ 0)) ∨
      (wordOp w = 5 ∧ (wordIdx w ≠ 0 ∨
        ∃ j, (wordLen w).toNat ≤ j ∧ j < 4 * payloadLength w ∧
          (ws.getD (j / 4) 0).extractLsb' (8 * (j % 4)) 8 ≠ 0)) ∨
      (wordOp w = 6 ∧ (wordIdx w ≠ 0 ∨ wordB w ≠ 0 ∨ wordC w ≠ 0)) ∨
      (wordOp w = 7 ∧ (wordC w).extractLsb' 2 6 ≠ 0)) ∧
    ∀ op rest, decode (w :: ws) = .illegal op rest → op = wordOp w ∧ rest = ws.drop (payloadLength w)

/-- R141: the command word alone tells the length of a command; until that many words are there the decoder waits, and it
takes exactly that many. -/
def Obligations.CommandLengthFromFirstWord : Prop :=
  ∀ (w : Word) (ws : List Word),
    let k := if wordOp w = 5 then ((wordLen w).toNat + 3) / 4
      else if wordOp w = 7 then 2 + (wordIdx w).toNat + (wordB w).toNat else 0
    (decode (w :: ws) = .incomplete ↔ ws.length < k) ∧
    (∀ i rest, decode (w :: ws) = .command i rest → rest = ws.drop k) ∧
    ∀ op rest, decode (w :: ws) = .illegal op rest → rest = ws.drop k

/-- R136: character j of a text is byte j mod 4, low byte first, of payload word j div 4, and the padding is zero. -/
def Obligations.TextPackedLowByteFirst : Prop :=
  ∀ t : List Byte, (packText t).length = (t.length + 3) / 4 ∧
    ∀ j, j < 4 * (packText t).length →
      ((packText t).getD (j / 4) 0).extractLsb' (8 * (j % 4)) 8 = t.getD j 0

/-- R101: the literal's digit for segment s, segment A first, is bit s of the mask. -/
def Obligations.LiteralBitsAreSegments : Prop :=
  ∀ (a : BitVec 8) (s : Nat), s < 8 → (maskOfLiteral a).getLsbD s = a.getLsbD (7 - s)

/-- R110, R112, R113: the 41 codes and their values, and no glyph for any other code. -/
def Obligations.GlyphRomContents : Prop :=
  let table : List (Byte × Byte) :=
    [(0x30, 0x3F), (0x31, 0x06), (0x32, 0x5B), (0x33, 0x4F), (0x34, 0x66), (0x35, 0x6D), (0x36, 0x7D), (0x37, 0x07),
      (0x38, 0x7F), (0x39, 0x6F)] ++
    [(0x41, 0x77), (0x42, 0x7C), (0x43, 0x39), (0x44, 0x5E), (0x45, 0x79), (0x46, 0x71), (0x47, 0x3D), (0x48, 0x76),
      (0x49, 0x30), (0x4A, 0x0E), (0x4B, 0x76), (0x4C, 0x38), (0x4D, 0x00)] ++
    [(0x4E, 0x54), (0x4F, 0x3F), (0x50, 0x73), (0x51, 0x67), (0x52, 0x50), (0x53, 0x6D), (0x54, 0x78), (0x55, 0x3E),
      (0x56, 0x3E), (0x57, 0x00), (0x58, 0x76), (0x59, 0x6E), (0x5A, 0x5B)] ++
    [(0x20, 0x00), (0x2D, 0x40), (0x2E, 0x80), (0x2A, 0x63), (0x5F, 0x08)]
  table.length = 41 ∧ (∀ x ∈ table, glyph x.1 = some x.2) ∧
    ∀ c : Byte, c ∉ table.map Prod.fst → glyph c = none

/-- R150, R310: the response word's fields, and the codes of the statuses. -/
def Obligations.ResponseWordFields : Prop :=
  (∀ r : Response, r.word.extractLsb' 16 16 = r.value ∧ r.word.extractLsb' 8 8 = r.data ∧
    r.word.extractLsb' 4 4 = 0 ∧ r.word.extractLsb' 0 4 = r.status.code) ∧
  [Status.ok, .configurationError, .rangeError, .unsupportedCharacter, .stringTooLong, .tooManySeparators,
    .illegalCommand, .notConstructed, .alreadyConstructed].map (fun e => e.code.toNat) = [0, 1, 2, 3, 4, 5, 6, 7, 8]

/-! ### Power-up and steps -/

/-- R54, first part, and R350: the state after power-up. -/
def Obligations.PowerUpState : Prop :=
  State.reset.life = .unconstructed ∧ State.reset.claimed = [] ∧ (∀ l, State.reset.lvl.read l = .unknown) ∧
    State.reset.fsm = .idle ∧ State.reset.trace = []

/-- A step runs the decoded command: when no pass and no buffer command of the moving agent is in progress, step is exec of
the command at its port, after the turn has passed and the command's words are taken. When a buffer command of the moving
agent is in progress, step is exactly one of its atomic steps, resumeTask (the model's choice of steps, log 1).
ScheduledAgentMoves says which agent moves. -/
def Obligations.StepRunsDecodedCommand : Prop :=
  (∀ (s : State) (i : Instr) (rest : List Word),
    s.beginTurn.pass = .idle → s.beginTurn.task = .none → decode s.beginTurn.pending = .command i rest →
      step s = exec i (s.beginTurn.setPending rest)) ∧
  ∀ s : State, s.beginTurn.pass = .idle → s.beginTurn.task ≠ .none → step s = .next (resumeTask s.beginTurn)

/-- R142, R143, R318: an illegal command answers IllegalCommand with VALUE = OP, whatever the lifecycle, and changes
nothing else; its words are taken. A command word with a reserved OP is one, of one word. -/
def Obligations.IllegalCommandAnswers : Prop :=
  (∀ (s : State) (op : BitVec 4) (rest : List Word),
    s.beginTurn.pass = .idle → s.beginTurn.task = .none → decode s.beginTurn.pending = .illegal op rest →
      step s = .next ((s.beginTurn.setPending rest).answered .illegalCommand 0 (op.setWidth 16))) ∧
  ∀ (s : State) (w : Word) (ws : List Word),
    s.beginTurn.pass = .idle → s.beginTurn.task = .none → s.beginTurn.pending = w :: ws →
      wordOp w = 0 ∨ 8 ≤ (wordOp w).toNat →
        step s = .next ((s.beginTurn.setPending ws).answered .illegalCommand 0 ((wordOp w).setWidth 16))

/-- R352 (the model's reading, log 4): with no whole command at its port and nothing in progress an agent waits, and a step
changes nothing but the schedule. -/
def Obligations.StepWaitsForCommand : Prop :=
  ∀ s : State, s.beginTurn.pass = .idle → s.beginTurn.task = .none → decode s.beginTurn.pending = .incomplete →
    step s = .next s.beginTurn

/-- R283: while a pass is in progress a step of the caller performs one phase, and no word is taken from the command
port. -/
def Obligations.PassBlocksCommandPort : Prop :=
  ∀ (s : State) (d : Nat) (p : Phase), s.fsm = .busy d p → s.beginTurn.turn = .caller →
    step s = runPhase d p s.beginTurn ∧
    ∀ t, step s = .next t → t.callerPort = s.callerPort ∧ t.callerTask = s.callerTask

/-- R80: when ASYNC_WRITER is false every turn is the caller's: nothing of the writer moves. -/
def Obligations.NoWriterNoWriterStep : Prop :=
  ∀ s t : State, s.config.asyncWriter = false → step s = .next t →
    t.turn = .caller ∧ t.writerPort = s.writerPort ∧ t.writerTask = s.writerTask

/-! ### LOOKUP and the single-digit commands -/

/-- R160: LOOKUP answers the glyph as DATA or UnsupportedCharacterError(c), in every state, and changes nothing else. -/
def Obligations.LookupAnswers : Prop :=
  ∀ (c : Byte) (s : State),
    (∀ m, glyph c = some m → exec (.lookup c) s = .next (s.answered .ok m 0)) ∧
    (glyph c = none → exec (.lookup c) s = .next (s.answered .unsupportedCharacter 0 (c.setWidth 16)))

/-- R200, R201: SETDIGIT on a constructed block: RangeError(i), else UnsupportedCharacterError(c), else the entry is
replaced by the glyph and nothing else changes. -/
def Obligations.SetdigitReplacesEntry : Prop :=
  ∀ (i : Nat) (c : Byte) (s : State) (cfg : Cfg) (buf : List Byte), s.life = .constructed cfg buf →
    (cfg.digits ≤ i → exec (.setdigit i c) s = .next (s.answered .rangeError 0 (BitVec.ofNat 16 i))) ∧
    (i < cfg.digits → glyph c = none →
      exec (.setdigit i c) s = .next (s.answered .unsupportedCharacter 0 (c.setWidth 16))) ∧
    ∀ m, i < cfg.digits → glyph c = some m →
      exec (.setdigit i c) s =
        .next { s with life := .constructed cfg (buf.set i m), trace := s.trace ++ [s.reply .ok 0 0] }

/-- R205, R206: SETSEG with no writer: it completes, sets bit g of the entry and changes nothing else. That its read, its
write and its response are one step is the model's choice (log 1); SetsegReadsThenWrites is the form with a writer. -/
def Obligations.SetsegOrsOneBit : Prop :=
  ∀ (i g : Nat) (s : State) (cfg : Cfg) (buf : List Byte), s.life = .constructed cfg buf →
    s.config.asyncWriter = false → i < cfg.digits → g < 8 →
      exec (.setseg i g) s =
        .next (({ s with
          life := .constructed cfg (buf.set i (buf.getD i 0 ||| (1#8 <<< g)))
          trace := s.trace ++ [s.reply .ok 0 0] } : State).setTask .none) ∧
      ∀ b, b < 8 → (buf.getD i 0 ||| (1#8 <<< g)).getLsbD b = if b = g then true else (buf.getD i 0).getLsbD b

/-- R205: SETSEG's errors: the digit index is checked first, and an error changes nothing else. -/
def Obligations.SetsegRangeErrors : Prop :=
  ∀ (i g : Nat) (s : State) (cfg : Cfg) (buf : List Byte), s.life = .constructed cfg buf →
    (cfg.digits ≤ i → exec (.setseg i g) s = .next (s.answered .rangeError 0 (BitVec.ofNat 16 i))) ∧
    (i < cfg.digits → 8 ≤ g → exec (.setseg i g) s = .next (s.answered .rangeError 0 (BitVec.ofNat 16 g)))

/-- R205, R83: with a writer SETSEG is two atomic steps. The write stores the value READ with the bit set, so a write that
fell between the two is lost. That the checks share the read's step, and the response the write's, is the model's choice
(log 1). The agent's next step is resumeTask (StepRunsDecodedCommand, ScheduledAgentMoves). -/
def Obligations.SetsegReadsThenWrites : Prop :=
  (∀ (i g : Nat) (s : State) (cfg : Cfg) (buf : List Byte), s.life = .constructed cfg buf →
    s.config.asyncWriter = true → i < cfg.digits → g < 8 →
      exec (.setseg i g) s = .next (s.setTask (.segWrite i g (buf.getD i 0)))) ∧
  ∀ (i g : Nat) (v : Byte) (u : State) (cfg : Cfg) (buf : List Byte), u.life = .constructed cfg buf →
    u.task = .segWrite i g v →
      resumeTask u =
        ({ u with
          life := .constructed cfg (buf.set i (v ||| (1#8 <<< g)))
          trace := u.trace ++ [u.reply .ok 0 0] } : State).setTask .none

/-- R210: SETCOMMA replaces the entry by the dot alone, or RangeError(i). -/
def Obligations.SetcommaReplacesEntry : Prop :=
  ∀ (i : Nat) (s : State) (cfg : Cfg) (buf : List Byte), s.life = .constructed cfg buf →
    (cfg.digits ≤ i → exec (.setcomma i) s = .next (s.answered .rangeError 0 (BitVec.ofNat 16 i))) ∧
    (i < cfg.digits → exec (.setcomma i) s =
      .next { s with life := .constructed cfg (buf.set i 0x80), trace := s.trace ++ [s.reply .ok 0 0] })

/-- R316: before CONFIG the five commands that need a constructed block answer NotConstructed with VALUE = OP and do
nothing; LOOKUP and CONFIG never answer NotConstructed, in any lifecycle. -/
def Obligations.NotConstructedBeforeConfig : Prop :=
  (∀ (s : State) (i g : Nat) (c : Byte) (t : List Byte), s.life = .unconstructed →
    exec (.setdigit i c) s = .next (s.answered .notConstructed 0 2) ∧
    exec (.setseg i g) s = .next (s.answered .notConstructed 0 3) ∧
    exec (.setcomma i) s = .next (s.answered .notConstructed 0 4) ∧
    exec (.setstr t) s = .next (s.answered .notConstructed 0 5) ∧
    (s.turn = .caller → exec .refresh s = .next (s.answered .notConstructed 0 6))) ∧
  ∀ (s t : State) (c : Byte) (pol : BitVec 2) (on dly : Int) (digs segs : List Nat) (data : Byte) (value : Value),
    exec (.lookup c) s = .next t ∨ exec (.config pol on dly digs segs) s = .next t →
      t.trace.getLast? ≠ some (s.reply .notConstructed data value)

/-! ### SETSTR -/

/-- R234, R235: what steps 4 and 5 make of a text. The result starts with no separator and has no two adjacent ones; it has
the text's separators and its other characters but for spaces in the text's order; its length grows by one for a leading
separator and one for each adjacent pair; a text that needs no space is unchanged. -/
def Obligations.SeparatorsGetSpaces : Prop :=
  ∀ t : List Byte,
    (∀ x, (spacedText t)[0]? = some x → isSep x = false) ∧
    (∀ (p : Nat) (x y : Byte), (spacedText t)[p]? = some x → (spacedText t)[p + 1]? = some y →
      ¬(isSep x = true ∧ isSep y = true)) ∧
    (spacedText t).filter (fun x => x != spaceCode) = t.filter (fun x => x != spaceCode) ∧
    (spacedText t).length = t.length + (t.head?.toList.filter isSep).length +
      ((t.zip t.tail).filter (fun x => isSep x.1 && isSep x.2)).length ∧
    ((∀ x, t[0]? = some x → isSep x = false) →
      (∀ (p : Nat) (x y : Byte), t[p]? = some x → t[p + 1]? = some y → ¬(isSep x = true ∧ isSep y = true)) →
      spacedText t = t)

/-- R239, R242: the target of the separator at position p is the number of non-separators before it, minus one; there is
at least one before it; the target is a rendered digit; no two separators share one. -/
def Obligations.DotTargetsAreRenderedDigits : Prop :=
  ∀ t : List Byte,
    textDots t = ((List.range (spacedText t).length).filter (fun p => isSep ((spacedText t).getD p 0))).map
      (fun p => (renderedChars ((spacedText t).take p)).length - 1) ∧
    (∀ p x, (spacedText t)[p]? = some x → isSep x = true →
      1 ≤ (renderedChars ((spacedText t).take p)).length) ∧
    (∀ d ∈ textDots t, d < (textChars t).length) ∧ (textDots t).Nodup

/-- R231, R232, R233, R236, R315: the capacity errors of SETSTR, in order; each leaves everything but the trace as it
was. -/
def Obligations.SetstrCapacityErrors : Prop :=
  ∀ (t : List Byte) (s : State) (cfg : Cfg) (buf : List Byte), s.life = .constructed cfg buf →
    (2 * cfg.digits < t.length → exec (.setstr t) s = .next (s.answered .stringTooLong 0 1)) ∧
    (t.length ≤ 2 * cfg.digits → cfg.digits < sepCount t →
      exec (.setstr t) s = .next (s.answered .tooManySeparators 0 2)) ∧
    (t.length ≤ 2 * cfg.digits → sepCount t ≤ cfg.digits → cfg.digits < t.length - sepCount t →
      exec (.setstr t) s = .next (s.answered .stringTooLong 0 3)) ∧
    (t.length ≤ 2 * cfg.digits → sepCount t ≤ cfg.digits → t.length - sepCount t ≤ cfg.digits →
      (2 * cfg.digits < (spacedText t).length ∨ cfg.digits < (spacedText t).length - sepCount (spacedText t)) →
      exec (.setstr t) s = .next (s.answered .tooManySeparators 0 6))

/-- R230, R237, R238, R239, R241: SETSTR of a text that passes the checks and has a glyph for every character, with no
writer: it completes, digit d of the text shows its character's glyph, with the dot exactly when a separator
targets it, the digits past the text keep their values, and nothing else changes. That all its accesses are one step is the
model's choice (log 1); SetstrAtomicSteps is the form with a writer. -/
def Obligations.SetstrRendersText : Prop :=
  ∀ (t : List Byte) (s : State) (cfg : Cfg) (buf : List Byte), s.life = .constructed cfg buf →
    buf.length = cfg.digits → s.config.asyncWriter = false →
    t.length ≤ 2 * cfg.digits → sepCount t ≤ cfg.digits → t.length - sepCount t ≤ cfg.digits →
    (textChars t).length ≤ cfg.digits → (∀ c ∈ textChars t, glyph c ≠ none) →
    ∃ shown : List Byte,
      exec (.setstr t) s =
        .next (({ s with
          life := .constructed cfg shown, trace := s.trace ++ [s.reply .ok 0 0] } : State).setTask .none) ∧
      shown.length = cfg.digits ∧
      ∀ d, d < cfg.digits → shown.getD d 0 =
        if d < (textChars t).length then
          (glyph ((textChars t).getD d 0)).getD 0 ||| (if d ∈ textDots t then 0x80 else 0)
        else buf.getD d 0

/-- R238, R240: a SETSTR whose characters include one without a glyph, with no writer: it answers
UnsupportedCharacterError with that character's code; the digits before it hold their glyphs, no dot is applied, and every
other digit keeps its value. That this is one step is the model's choice (log 1). -/
def Obligations.SetstrStopsAtUnsupported : Prop :=
  ∀ (t done todo : List Byte) (c : Byte) (s : State) (cfg : Cfg) (buf : List Byte), s.life = .constructed cfg buf →
    buf.length = cfg.digits → s.config.asyncWriter = false →
    t.length ≤ 2 * cfg.digits → sepCount t ≤ cfg.digits → t.length - sepCount t ≤ cfg.digits →
    (textChars t).length ≤ cfg.digits → textChars t = done ++ c :: todo →
    (∀ x ∈ done, glyph x ≠ none) → glyph c = none →
    ∃ shown : List Byte,
      exec (.setstr t) s =
        .next (({ s with
          life := .constructed cfg shown
          trace := s.trace ++ [s.reply .unsupportedCharacter 0 (c.setWidth 16)] } : State).setTask .none) ∧
      shown.length = cfg.digits ∧
      ∀ d, d < cfg.digits → shown.getD d 0 =
        if d < done.length then (glyph (done.getD d 0)).getD 0 else buf.getD d 0

/-- R243: the empty text writes nothing and answers OK, with or without a writer. -/
def Obligations.EmptyTextWritesNothing : Prop :=
  ∀ (s : State) (cfg : Cfg) (buf : List Byte), s.life = .constructed cfg buf → s.task = .none →
    exec (.setstr []) s = .next (s.answered .ok 0 0)

/-- R238, R239, R80: with a writer each buffer access of SETSTR is an atomic step of its own: a glyph write, a dot's read,
and the write of the value read with bit 7 set. The model's choice (log 1): the checks of steps 1 to 6 are a step before
these with no buffer access, the error of step 7 is a step with none, and OK is answered in the step of the last access.
The agent's next step is resumeTask (StepRunsDecodedCommand, ScheduledAgentMoves). -/
def Obligations.SetstrAtomicSteps : Prop :=
  (∀ (t : List Byte) (s : State) (cfg : Cfg) (buf : List Byte) (c : Byte) (cs : List Byte),
    s.life = .constructed cfg buf → s.config.asyncWriter = true → textCheck cfg.digits t = none →
    textChars t = c :: cs → exec (.setstr t) s = .next (s.setTask (.render 0 (c :: cs) (textDots t)))) ∧
  ∀ (u : State) (cfg : Cfg) (buf : List Byte), u.life = .constructed cfg buf →
    let write := fun (d : Nat) (v : Byte) => ({ u with life := .constructed cfg (buf.set d v) } : State)
    let writeLast := fun (d : Nat) (v : Byte) => (({ u with
      life := .constructed cfg (buf.set d v), trace := u.trace ++ [u.reply .ok 0 0] } : State)).setTask .none
    (∀ d c cs dots, u.task = .render d (c :: cs) dots → glyph c = none →
      resumeTask u = (u.answered .unsupportedCharacter 0 (c.setWidth 16)).setTask .none) ∧
    (∀ d c c' cs dots m, u.task = .render d (c :: c' :: cs) dots → glyph c = some m →
      resumeTask u = (write d m).setTask (.render (d + 1) (c' :: cs) dots)) ∧
    (∀ d c e ds m, u.task = .render d [c] (e :: ds) → glyph c = some m →
      resumeTask u = (write d m).setTask (.dotRead (e :: ds))) ∧
    (∀ d c m, u.task = .render d [c] [] → glyph c = some m → resumeTask u = writeLast d m) ∧
    (∀ d ds, u.task = .dotRead (d :: ds) → resumeTask u = u.setTask (.dotWrite d (buf.getD d 0) ds)) ∧
    (∀ d v e ds, u.task = .dotWrite d v (e :: ds) →
      resumeTask u = (write d (v ||| 0x80)).setTask (.dotRead (e :: ds))) ∧
    (∀ d v, u.task = .dotWrite d v [] → resumeTask u = writeLast d (v ||| 0x80))

/-- R76, R80: the atomic steps of a command, with no step of the other agent between them, add up to the command run whole:
for every command, what a block with a writer reaches by running the command's atomic steps to its end is what the same
block without one reaches in one step. That it runs the command in one step is the model's choice (log 1). -/
def Obligations.AtomicStepsAddUp : Prop :=
  ∀ (i : Instr) (s t : State), s.task = .none →
    exec i { s with config := { s.config with asyncWriter := true } } = .next t →
    exec i { s with config := { s.config with asyncWriter := false } } =
      .next { drain t.task.size t with config := { s.config with asyncWriter := false } }

/-- The model's progress rule (log 1): with no writer no buffer command is left between two of its atomic steps, so the
caller's next step is a phase or a new command. -/
def Obligations.NoWriterNothingPending : Prop :=
  ∀ s t : State, s.config.asyncWriter = false → s.callerTask = .none → step s = .next t → t.callerTask = .none

/-! ### CONFIG -/

/-- R180, R184, R185, R186, R351: a CONFIG that passes the five checks, on an unconstructed block, with lines the backend
accepts and no other block holds: it completes; configuration, buffer, state machine, trace, lines. -/
def Obligations.ConfigConstructs : Prop :=
  ∀ (pol : BitVec 2) (on dly : Int) (digs segs : List Nat) (s : State),
    s.turn = .caller → s.life = .unconstructed →
    segs.length = 8 → 1 ≤ digs.length → digs.length ≤ s.config.maxDigits → 0 ≤ on → 0 ≤ dly → pol = 0 ∨ pol = 1 →
    (∀ l ∈ digs ++ segs, l < s.config.lineCount ∧ l ∉ s.config.heldElsewhere) →
    let calls := if pol = 0
      then digs.flatMap (fun l => [.configureOutput l, .setLines [l]]) ++
        segs.flatMap (fun l => [.configureOutput l, .clearLines [l]])
      else digs.flatMap (fun l => [.configureOutput l, .clearLines [l]]) ++
        segs.flatMap (fun l => [.configureOutput l, .setLines [l]])
    exec (.config pol on dly digs segs) s = .next { s with
      life := .constructed
        { dig := digs, seg := segs, pol := if pol = 0 then .commonCathode else .commonAnode, on := on.toNat,
          dly := dly.toNat }
        (List.replicate digs.length 0)
      claimed := calls.foldl (fun c e => e.claims c) s.claimed
      lvl := calls.foldl (fun m e => e.levels m) s.lvl
      fsm := .idle
      trace := s.trace ++ calls ++ [s.reply .ok 0 0] } ∧
    calls.length = 2 * (digs.length + 8)

/-- R351, R54, R280: after CONFIG's calls on distinct lines every digit line and every segment line is INACTIVE, every
listed line is claimed, and every other line keeps its level and its claim. -/
def Obligations.ConfigLeavesLinesQuiet : Prop :=
  ∀ (cfg : Cfg) (s : State) (l : Nat),
    (cfg.DistinctLines → Quiet cfg (s.emitAll (configCalls cfg)).lvl) ∧
    (l ∉ cfg.lines → (s.emitAll (configCalls cfg)).lvl.read l = s.lvl.read l) ∧
    (l ∈ (s.emitAll (configCalls cfg)).claimed ↔ l ∈ cfg.lines ∨ l ∈ s.claimed)

/-- R181, R182, R183, R312: the five checks in order; a CONFIG that fails one answers ConfigurationError with the check's
number, and nothing else changes. -/
def Obligations.ConfigChecksInOrder : Prop :=
  ∀ (pol : BitVec 2) (on dly : Int) (digs segs : List Nat) (s : State),
    s.turn = .caller → s.life = .unconstructed →
    (segs.length ≠ 8 →
      exec (.config pol on dly digs segs) s = .next (s.answered .configurationError 0 1)) ∧
    (segs.length = 8 → (digs.length = 0 ∨ s.config.maxDigits < digs.length) →
      exec (.config pol on dly digs segs) s = .next (s.answered .configurationError 0 2)) ∧
    (segs.length = 8 → 1 ≤ digs.length → digs.length ≤ s.config.maxDigits → on < 0 →
      exec (.config pol on dly digs segs) s = .next (s.answered .configurationError 0 3)) ∧
    (segs.length = 8 → 1 ≤ digs.length → digs.length ≤ s.config.maxDigits → 0 ≤ on → dly < 0 →
      exec (.config pol on dly digs segs) s = .next (s.answered .configurationError 0 4)) ∧
    (segs.length = 8 → 1 ≤ digs.length → digs.length ≤ s.config.maxDigits → 0 ≤ on → 0 ≤ dly → pol = 2 ∨ pol = 3 →
      exec (.config pol on dly digs segs) s = .next (s.answered .configurationError 0 5))

/-- R188, R317: a CONFIG on a constructed block answers AlreadyConstructed with VALUE 7, whatever its operands, and changes
nothing else. -/
def Obligations.SecondConfigRejected : Prop :=
  ∀ (pol : BitVec 2) (on dly : Int) (digs segs : List Nat) (s : State) (cfg : Cfg) (buf : List Byte),
    s.turn = .caller → s.life = .constructed cfg buf →
      exec (.config pol on dly digs segs) s = .next (s.answered .alreadyConstructed 0 7)

/-- R80, R189, R335: what the model declines, and nothing else: CONFIG and REFRESH from the writer; a CONFIG of the caller
on an unconstructed block, its checks passed, with a line at or above LINE_COUNT or a line another block holds. -/
def Obligations.RefusalsExactly : Prop :=
  ∀ (i : Instr) (s : State),
    (∃ r, exec i s = .refused r) ↔
      (s.turn = .writer ∧ bufferCommand i = false) ∨
      ∃ pol on dly digs segs, i = .config pol on dly digs segs ∧ s.turn = .caller ∧ s.life = .unconstructed ∧
        configCheck s.config.maxDigits pol on dly digs segs = none ∧
        ∃ l ∈ digs ++ segs, s.config.lineCount ≤ l ∨ l ∈ s.config.heldElsewhere

/-! ### REFRESH -/

/-- R270, R271: the ACTIVE and INACTIVE levels of each polarity, and the call that applies a level. -/
def Obligations.PolarityLevels : Prop :=
  Polarity.commonCathode.digitActive = .low ∧ Polarity.commonCathode.digitInactive = .high ∧
  Polarity.commonCathode.segActive = .high ∧ Polarity.commonCathode.segInactive = .low ∧
  Polarity.commonAnode.digitActive = .high ∧ Polarity.commonAnode.digitInactive = .low ∧
  Polarity.commonAnode.segActive = .low ∧ Polarity.commonAnode.segInactive = .high ∧
  ∀ S : LineSet, drive S .high = .setLines S ∧ drive S .low = .clearLines S

/-- R43: what each backend call does to the lines: SetLines and ClearLines change the level of the lines of their set and
of no other; ConfigureOutput claims its line; nothing else is changed. Before any call every line is UNKNOWN. -/
def Obligations.BackendCallsChangeTheirLines : Prop :=
  (∀ l, State.reset.lvl.read l = .unknown) ∧
  ∀ (s : State) (S : LineSet) (l k t : Nat),
    (s.emit (.setLines S)).lvl.read k = (if k ∈ S then .high else s.lvl.read k) ∧
    (s.emit (.clearLines S)).lvl.read k = (if k ∈ S then .low else s.lvl.read k) ∧
    (s.emit (.configureOutput l)).lvl = s.lvl ∧ (s.emit (.sleepUs t)).lvl = s.lvl ∧
    (k ∈ (s.emit (.configureOutput l)).claimed ↔ k = l ∨ k ∈ s.claimed) ∧
    (s.emit (.setLines S)).claimed = s.claimed ∧ (s.emit (.clearLines S)).claimed = s.claimed ∧
    (s.emit (.sleepUs t)).claimed = s.claimed

/-- R272, R276, R277, R279, R273: each phase of a digit of the display is one step with its one call; SEG_ON reads the
digit's entry as it stands and drives exactly the segment lines of its 1 bits; the last phase of the last digit ends the
pass and answers OK; nothing else changes. That the OK is in the step of the last phase is the model's choice (log 1). -/
def Obligations.PhasesMakeTheirCalls : Prop :=
  ∀ (d l : Nat) (s : State) (cfg : Cfg) (buf : List Byte), s.life = .constructed cfg buf → cfg.dig[d]? = some l →
    let after := fun (e : Event) (f : Fsm) => (({ s with
      trace := s.trace ++ [e], lvl := e.levels s.lvl, fsm := f } : State))
    runPhase d .digOn s = .next (after (drive [l] cfg.pol.digitActive) (.busy d .segOn)) ∧
    (∃ S : LineSet, S.wf ∧ (∀ k, k ∈ S ↔ ∃ g, cfg.seg[g]? = some k ∧ (buf.getD d 0).getLsbD g = true) ∧
      runPhase d .segOn s = .next (after (drive S cfg.pol.segActive) (.busy d .holdOn))) ∧
    runPhase d .holdOn s = .next (after (.sleepUs cfg.on) (.busy d .segOff)) ∧
    (∃ S : LineSet, S.wf ∧ (∀ k, k ∈ S ↔ k ∈ cfg.seg) ∧
      runPhase d .segOff s = .next (after (drive S cfg.pol.segInactive) (.busy d .digOff))) ∧
    runPhase d .digOff s = .next (after (drive [l] cfg.pol.digitInactive) (.busy d .holdDly)) ∧
    (d + 1 < cfg.digits → runPhase d .holdDly s = .next (after (.sleepUs cfg.dly) (.busy (d + 1) .digOn))) ∧
    (d + 1 = cfg.digits → runPhase d .holdDly s =
      .next { s with trace := s.trace ++ [.sleepUs cfg.dly] ++ [s.reply .ok 0 0], fsm := .idle })

/-- R273, R274: REFRESH completes. On a constructed block the caller's REFRESH moves the state machine to the first phase
of digit 0; the 6 N steps that follow, with no writer's turn among them, make exactly the calls of the pass, end IDLE and
answer OK; the lines have the levels those calls leave, and nothing else changes. That the first move is a step of its own
with no call, and the OK in the step of the last phase, is the model's choice (log 1). -/
def Obligations.RefreshRunsWholePass : Prop :=
  ∀ (s : State) (cfg : Cfg) (buf : List Byte), s.life = .constructed cfg buf → 1 ≤ cfg.digits →
    s.turn = .caller → s.sched = [] →
      exec .refresh s = .next { s with fsm := .busy 0 .digOn } ∧
      core.run (6 * cfg.digits) { s with fsm := .busy 0 .digOn } = .next { s with
        trace := s.trace ++ passCalls cfg buf ++ [s.reply .ok 0 0]
        lvl := (passCalls cfg buf).foldl (fun m e => e.levels m) s.lvl
        fsm := .idle }

/-- R274, R285: one pass has 6 N calls, 2 N of them holds, and its holds sum to N * (ON + DLY). -/
def Obligations.PassLengthAndHoldSum : Prop :=
  ∀ (cfg : Cfg) (buf : List Byte),
    (passCalls cfg buf).length = 6 * cfg.digits ∧
    ((passCalls cfg buf).filter (fun e => match e with | .sleepUs _ => true | _ => false)).length = 2 * cfg.digits ∧
    holdSum (passCalls cfg buf) = cfg.digits * (cfg.on + cfg.dly)

/-- R286: for the same configuration but for polarity and the same buffer, the COMMON_ANODE trace of a pass is the
COMMON_CATHODE trace with SetLines and ClearLines exchanged, and after any number of its calls the levels of the lines
driven so far are complementary when they were before. -/
def Obligations.PolarityInvertsPass : Prop :=
  ∀ (cfg : Cfg) (buf : List Byte),
    passCalls { cfg with pol := .commonAnode } buf =
      (passCalls { cfg with pol := .commonCathode } buf).map Event.inverted ∧
    ∀ (n l : Nat) (m m' : Memory), m'.read l = (m.read l).opposite →
      (((passCalls { cfg with pol := .commonAnode } buf).take n).foldl (fun m e => e.levels m) m').read l =
        ((((passCalls { cfg with pol := .commonCathode } buf).take n).foldl (fun m e => e.levels m) m).read l).opposite

/-- R280: a pass on distinct lines that starts with every line INACTIVE ends with every line INACTIVE. -/
def Obligations.PassEndsQuiet : Prop :=
  ∀ (cfg : Cfg) (buf : List Byte) (m : Memory), cfg.DistinctLines → Quiet cfg m →
    Quiet cfg ((passCalls cfg buf).foldl (fun m e => e.levels m) m)

/-- R282, R52: under the premises of R281, after SEG_ON of digit d the lit pattern is the mask read, on digit d only. -/
def Obligations.HoldShowsMaskOnOneDigit : Prop :=
  ∀ (s t : State) (cfg : Cfg) (buf : List Byte) (d : Nat), s.life = .constructed cfg buf → cfg.DistinctLines →
    s.DisplayRule → s.fsm = .busy d .segOn → runPhase d .segOn s = .next t →
      ∀ e g, litAt cfg t.lvl e g =
        (decide (e = d) && decide (g < cfg.seg.length) && (buf.getD d 0).getLsbD g)

/-- R281: under the display rule no two digits are ACTIVE at once, and none is while the state machine is IDLE. -/
def Obligations.AtMostOneDigitActive : Prop :=
  ∀ (s : State) (cfg : Cfg) (buf : List Byte), s.life = .constructed cfg buf → cfg.DistinctLines → s.DisplayRule →
    (∀ d e l k : Nat, cfg.dig[d]? = some l → cfg.dig[e]? = some k → s.lvl.read l = cfg.pol.digitActive →
      s.lvl.read k = cfg.pol.digitActive → d = e) ∧
    (s.fsm = .idle → ∀ l ∈ cfg.dig, s.lvl.read l ≠ cfg.pol.digitActive)

/-! ### Frames -/

/-- R40, R41, R211: what LOOKUP, SETDIGIT, SETSEG, SETCOMMA and SETSTR leave unchanged, in every form, and what one atomic
step of them leaves unchanged. -/
def Obligations.BufferCommandsFrame : Prop :=
  (∀ (i : Instr) (s t : State), bufferCommand i = true → exec i s = .next t → BufferFrame s t) ∧
  ∀ s : State, BufferFrame s (resumeTask s)

/-- R211, R241: the entries each command leaves unchanged: all of them (LOOKUP, REFRESH), all but the one named (SETDIGIT,
SETSEG, SETCOMMA), all past the rendered text (SETSTR). -/
def Obligations.OtherEntriesUnchanged : Prop :=
  ∀ (s t : State) (i g j : Nat) (c : Byte) (text : List Byte),
    (exec (.lookup c) s = .next t → t.buf = s.buf ∧ t.task = s.task) ∧
    (exec .refresh s = .next t → t.life = s.life ∧ t.task = s.task) ∧
    (exec (.setdigit i c) s = .next t → j ≠ i → t.buf[j]? = s.buf[j]? ∧ t.task = s.task) ∧
    (exec (.setcomma i) s = .next t → j ≠ i → t.buf[j]? = s.buf[j]? ∧ t.task = s.task) ∧
    (exec (.setseg i g) s = .next t → j ≠ i → t.buf[j]? = s.buf[j]?) ∧
    (exec (.setstr text) s = .next t → (textChars text).length ≤ j → t.buf[j]? = s.buf[j]?)

/-- R273, R40: no phase writes the buffer, the configuration, the claims or a port, and a phase changes the level of no line
outside the configuration. -/
def Obligations.PhasesFrame : Prop :=
  ∀ (d : Nat) (p : Phase) (s t : State), runPhase d p s = .next t →
    t.life = s.life ∧ t.claimed = s.claimed ∧ t.config = s.config ∧ t.callerTask = s.callerTask ∧
    t.writerTask = s.writerTask ∧ t.callerPort = s.callerPort ∧ t.writerPort = s.writerPort ∧ t.turn = s.turn ∧
    t.sched = s.sched ∧
    ∀ cfg buf, s.life = .constructed cfg buf → ∀ l, l ∉ cfg.lines → t.lvl.read l = s.lvl.read l

/-- CONFIG's frame: whatever it answers, the tasks, ports, turn, schedule and parameters stay, and lines it does not list
keep their level and claim. -/
def Obligations.ConfigFrame : Prop :=
  ∀ (pol : BitVec 2) (on dly : Int) (digs segs : List Nat) (s t : State),
    exec (.config pol on dly digs segs) s = .next t →
      t.config = s.config ∧ t.callerTask = s.callerTask ∧ t.writerTask = s.writerTask ∧
      t.callerPort = s.callerPort ∧ t.writerPort = s.writerPort ∧ t.turn = s.turn ∧ t.sched = s.sched ∧
      ∀ l, l ∉ digs ++ segs → t.lvl.read l = s.lvl.read l ∧ (l ∈ t.claimed ↔ l ∈ s.claimed)

/-! ### Rules of the whole machine -/

/-- The state after power-up meets the invariant and the display rule. -/
def Obligations.ResetMeetsInvariants : Prop := State.reset.Inv ∧ State.reset.DisplayRule

/-- Every step keeps the invariant: the canonical form of the line memory and of the claims, their agreement with the trace
(R50), and the lifecycle rule (R30 to R45, R242). -/
def Obligations.StepKeepsInvariant : Prop := ∀ s t : State, s.Inv → step s = .next t → t.Inv

/-- R280, R281, R282: every step keeps the display rule, with or without a writer. -/
def Obligations.StepKeepsDisplayRule : Prop := ∀ s t : State, s.DisplayRule → step s = .next t → t.DisplayRule

/-- R322: the block has no traps: no step faults from a state that meets the invariant. -/
def Obligations.NoStepFaults : Prop := ∀ (s : State) (r : Fault), s.Inv → step s ≠ .fault r

/-- R30, R31, R184: once constructed the block stays constructed with the same configuration, and the buffer keeps its
length. -/
def Obligations.ConfigurationIsImmutable : Prop :=
  ∀ (s t : State) (cfg : Cfg) (buf : List Byte), s.life = .constructed cfg buf → step s = .next t →
    ∃ buf' : List Byte, t.life = .constructed cfg buf' ∧ buf'.length = buf.length

/-- R42 and R12 (log 3): no step gives up a claimed line, and no step writes a parameter. -/
def Obligations.ClaimsAndParametersStay : Prop :=
  ∀ s t : State, step s = .next t → (∀ l ∈ s.claimed, l ∈ t.claimed) ∧ t.config = s.config

/-- R362: with no writer no step of a pass changes the buffer, so no torn frame can occur. -/
def Obligations.NoTornFrameWithoutWriter : Prop :=
  ∀ (s t : State) (d : Nat) (p : Phase), s.config.asyncWriter = false → s.fsm = .busy d p → step s = .next t →
    t.life = s.life

/-- R49, R50, R323: the trace only grows, and nothing in the block reads it: a step does the same whatever the trace holds,
so a response or an error leaves no mark on the next command. -/
def Obligations.TraceIsNeverRead : Prop :=
  ∀ s t : State, step s = .next t → ∃ new : List Event, t.trace = s.trace ++ new ∧
    ∀ past : List Event, step { s with trace := past } = .next { t with trace := past ++ new }

/-- R49: a command ends with exactly one response, which comes after its backend calls. That with no writer every command
but REFRESH ends in its own step is the model's choice (logs 1 and 7). -/
def Obligations.OneResponsePerCommand : Prop :=
  ∀ (i : Instr) (s t : State), s.config.asyncWriter = false → s.task = .none → i ≠ .refresh → exec i s = .next t →
    ∃ (calls : List Event) (r : Response), t.trace = s.trace ++ calls ++ [.response s.turn r] ∧
      calls.all Event.isCall = true ∧ (bufferCommand i = true → calls = [])

/-- R80, R283, R289: who moves, in terms of the state's fields. With a writer, an agent named first by the schedule moves: the
writer, whatever phase a pass is in, performs one atomic step of its command in progress or issues the command at its own
port. Otherwise the caller moves: one phase of a pass, or else one atomic step, or else the command at the command port. The
schedule and the writer's port are the model's choice (logs 2 and 5), and the grouping into steps too (log 1). -/
def Obligations.ScheduledAgentMoves : Prop :=
  (∀ (s : State) (agents : List Agent), s.config.asyncWriter = true → s.sched = .writer :: agents →
    let u : State := { s with turn := .writer, sched := agents }
    (s.writerTask ≠ .none → step s = .next (resumeTask u)) ∧
    ∀ i rest, s.writerTask = .none → decode s.writerPort = .command i rest →
      step s = exec i { u with writerPort := rest }) ∧
  ∀ s : State, s.config.asyncWriter = false ∨ s.sched.head? ≠ some .writer →
    let u : State := { s with turn := .caller, sched := s.sched.tail }
    (∀ d p, s.fsm = .busy d p → step s = runPhase d p u) ∧
    (s.fsm = .idle → s.callerTask ≠ .none → step s = .next (resumeTask u)) ∧
    ∀ i rest, s.fsm = .idle → s.callerTask = .none → decode s.callerPort = .command i rest →
      step s = exec i { u with callerPort := rest }
end

