-- ==== Sys2Proof/Laws/Decode.lean ====
section
/-! SUPPORT. The fields of a command word and the bytes of a payload word (R131, R136). -/

namespace Sys2Proof

/-! ### Fields of a command word (R131) -/

@[simp] theorem wordOp_commandWord (op : BitVec 4) (idx : BitVec 12) (b c : Byte) :
    wordOp (commandWord op idx b c) = op := by
  apply BitVec.eq_of_getLsbD_eq
  intro i hi
  interval_cases i <;> simp [wordOp, commandWord, BitVec.getLsbD_of_ge]

@[simp] theorem wordIdx_commandWord (op : BitVec 4) (idx : BitVec 12) (b c : Byte) :
    wordIdx (commandWord op idx b c) = idx := by
  apply BitVec.eq_of_getLsbD_eq
  intro i hi
  interval_cases i <;> simp [wordIdx, commandWord, BitVec.getLsbD_of_ge]

@[simp] theorem wordB_commandWord (op : BitVec 4) (idx : BitVec 12) (b c : Byte) :
    wordB (commandWord op idx b c) = b := by
  apply BitVec.eq_of_getLsbD_eq
  intro i hi
  interval_cases i <;> simp [wordB, commandWord, BitVec.getLsbD_of_ge]

@[simp] theorem wordC_commandWord (op : BitVec 4) (idx : BitVec 12) (b c : Byte) :
    wordC (commandWord op idx b c) = c := by
  apply BitVec.eq_of_getLsbD_eq
  intro i hi
  interval_cases i <;> simp [wordC, commandWord]

/-- L is B above C (R131). -/
theorem wordLen_eq (w : Word) : (wordLen w).toNat = 256 * (wordB w).toNat + (wordC w).toNat := by
  have hw := w.isLt
  simp only [wordLen, wordB, wordC, BitVec.extractLsb'_toNat, Nat.shiftRight_eq_div_pow]
  omega

/-- A command word is told by its four fields. -/
theorem commandWord_fields (w : Word) : commandWord (wordOp w) (wordIdx w) (wordB w) (wordC w) = w := by
  apply BitVec.eq_of_getLsbD_eq
  intro i hi
  interval_cases i <;> simp [wordOp, wordIdx, wordB, wordC, commandWord, BitVec.getLsbD_of_ge]

/-- How many payload words follow a command word with given fields (R141). -/
theorem payloadLength_commandWord (op : BitVec 4) (idx : BitVec 12) (b c : Byte) :
    payloadLength (commandWord op idx b c) =
      if op = 5 then (256 * b.toNat + c.toNat + 3) / 4 else if op = 7 then 2 + idx.toNat + b.toNat else 0 := by
  unfold payloadLength
  simp only [wordOp_commandWord, wordLen_eq, wordB_commandWord, wordC_commandWord, wordIdx_commandWord]
  have hop := op.isLt
  by_cases h5 : op = 5
  · subst h5; rfl
  · by_cases h7 : op = 7
    · subst h7; rfl
    · have : op.toNat ≠ 5 := fun h => h5 (BitVec.eq_of_toNat_eq h)
      have : op.toNat ≠ 7 := fun h => h7 (BitVec.eq_of_toNat_eq h)
      simp only [h5, h7, if_false]

/-! ### Bytes of a payload word (R136) -/

@[simp] theorem wordBytes_packWord (a b c d : Byte) : wordBytes (packWord a b c d) = [a, b, c, d] := by
  simp only [wordBytes, List.cons.injEq, and_true]
  refine ⟨?_, ?_, ?_, ?_⟩ <;>
    (apply BitVec.eq_of_getLsbD_eq; intro i hi; interval_cases i <;> simp [packWord, BitVec.getLsbD_of_ge])

/-- A payload word is told by its four bytes. -/
theorem packWord_bytes (w : Word) :
    packWord (w.extractLsb' 0 8) (w.extractLsb' 8 8) (w.extractLsb' 16 8) (w.extractLsb' 24 8) = w := by
  apply BitVec.eq_of_getLsbD_eq
  intro i hi
  interval_cases i <;> simp [packWord, BitVec.getLsbD_of_ge]

end Sys2Proof
end

