-- ==== Sys2Proof/Laws/Memory.lean ====
section
/-! SUPPORT. The laws of the line memory and of sets of lines: read after write, and that every operation keeps the
canonical form. -/

namespace Sys2Proof.Machine

/-! ### Sets of lines -/

@[simp] theorem LineSet.mem_insert (l k : Nat) (S : LineSet) : k ∈ LineSet.insert l S ↔ k = l ∨ k ∈ S := by
  induction S with
  | nil => simp [LineSet.insert]
  | cons a as ih =>
    unfold LineSet.insert
    split
    · simp
    · split
      · subst_vars; simp
      · simp [ih]; tauto

theorem LineSet.insert_wf (l : Nat) {S : LineSet} (h : LineSet.wf S) : LineSet.wf (LineSet.insert l S) := by
  induction S with
  | nil => simp [LineSet.insert]
  | cons a as ih =>
    obtain ⟨ha, has⟩ := List.pairwise_cons.mp h
    unfold LineSet.insert
    split
    · rename_i hl
      exact List.pairwise_cons.mpr ⟨fun b hb => by
        rcases List.mem_cons.mp hb with rfl | hb
        · exact hl
        · exact lt_trans hl (ha b hb), h⟩
    · split
      · exact h
      · refine List.pairwise_cons.mpr ⟨fun b hb => ?_, ih has⟩
        rcases (LineSet.mem_insert l b as).mp hb with rfl | hb
        · omega
        · exact ha b hb

theorem LineSet.mem_foldl_insert (k : Nat) (ls : List Nat) (S : LineSet) :
    k ∈ ls.foldl (fun S l => LineSet.insert l S) S ↔ k ∈ ls ∨ k ∈ S := by
  induction ls generalizing S with
  | nil => simp
  | cons a as ih => rw [List.foldl_cons, ih]; simp; tauto

theorem LineSet.foldl_insert_wf (ls : List Nat) {S : LineSet} (h : LineSet.wf S) :
    LineSet.wf (ls.foldl (fun S l => LineSet.insert l S) S) := by
  induction ls generalizing S with
  | nil => exact h
  | cons a as ih => exact ih (LineSet.insert_wf a h)

@[simp] theorem LineSet.mem_ofList (k : Nat) (ls : List Nat) : k ∈ LineSet.ofList ls ↔ k ∈ ls := by
  simp [LineSet.ofList, LineSet.mem_foldl_insert]

theorem LineSet.ofList_wf (ls : List Nat) : LineSet.wf (LineSet.ofList ls) :=
  LineSet.foldl_insert_wf ls List.Pairwise.nil

/-! ### The line memory -/

theorem Memory.read_insert (m : Memory) (l k : Nat) (v : Level) :
    (Memory.insert l v m).read k = if k = l then v else m.read k := by
  induction m with
  | nil => simp [Memory.insert, Memory.read, eq_comm]
  | cons c m ih =>
    obtain ⟨a, w⟩ := c
    unfold Memory.insert
    split
    · simp only [Memory.read, eq_comm]
    · split
      · subst_vars; simp only [Memory.read, eq_comm]; split <;> simp_all
      · simp only [Memory.read, ih]
        split <;> split <;> simp_all

theorem Memory.read_filter (m : Memory) (l k : Nat) :
    Memory.read (m.filter (fun c => c.1 != l)) k = if k = l then .unknown else m.read k := by
  induction m with
  | nil => simp [Memory.read]
  | cons c m ih =>
    obtain ⟨a, w⟩ := c
    rw [List.filter_cons]
    by_cases ha : a = l
    · simp only [ha, bne_self_eq_false, Bool.false_eq_true, if_false, ih, Memory.read]
      by_cases hk : k = l
      · simp [hk]
      · simp [hk, Ne.symm hk]
    · simp only [bne_iff_ne, ne_eq, ha, not_false_eq_true, if_true, Memory.read, ih]
      split <;> split <;> simp_all

/-- Read after write (R43): the line written has the level written, every other line keeps its level. -/
@[simp] theorem Memory.read_write (m : Memory) (l k : Nat) (v : Level) :
    (m.write l v).read k = if k = l then v else m.read k := by
  unfold Memory.write
  split
  · subst_vars; exact Memory.read_filter m l k
  · exact Memory.read_insert m l k v

@[simp] theorem Memory.read_writeAll (m : Memory) (S : LineSet) (k : Nat) (v : Level) :
    (m.writeAll S v).read k = if k ∈ S then v else m.read k := by
  unfold Memory.writeAll
  induction S generalizing m with
  | nil => simp
  | cons a S ih => rw [List.foldl_cons, ih]; simp; split <;> simp_all

theorem Memory.fst_mem_insert (m : Memory) (l : Nat) (v : Level) {c : Nat × Level}
    (h : c ∈ Memory.insert l v m) : c = (l, v) ∨ c ∈ m := by
  induction m with
  | nil => simpa [Memory.insert] using h
  | cons b m ih =>
    obtain ⟨a, w⟩ := b
    unfold Memory.insert at h
    split at h
    · simpa using h
    · split at h
      · rcases List.mem_cons.mp h with rfl | h
        · exact .inl rfl
        · exact .inr (List.mem_cons_of_mem _ h)
      · rcases List.mem_cons.mp h with rfl | h
        · exact .inr List.mem_cons_self
        · exact (ih h).imp id (List.mem_cons_of_mem _)

theorem Memory.insert_wf {m : Memory} (h : m.wf) (l : Nat) {v : Level} (hv : v ≠ .unknown) :
    Memory.wf (Memory.insert l v m) := by
  refine ⟨?_, fun c hc => ?_⟩
  · induction m with
    | nil => simp [Memory.insert]
    | cons b m ih =>
      obtain ⟨a, w⟩ := b
      obtain ⟨hs, hu⟩ := h
      obtain ⟨ha, hm⟩ := List.pairwise_cons.mp hs
      unfold Memory.insert
      split
      · rename_i hl
        refine List.pairwise_cons.mpr ⟨fun c hc => ?_, hs⟩
        rcases List.mem_cons.mp hc with rfl | hc
        · exact hl
        · exact lt_trans hl (ha c hc)
      · split
        · subst_vars; exact List.pairwise_cons.mpr ⟨ha, hm⟩
        · refine List.pairwise_cons.mpr ⟨fun c hc => ?_, ih ⟨hm, fun c hc => hu c (List.mem_cons_of_mem _ hc)⟩⟩
          rcases Memory.fst_mem_insert m l v hc with rfl | hc
          · simp only; omega
          · exact ha c hc
  · rcases Memory.fst_mem_insert m l v hc with rfl | hc
    · exact hv
    · exact h.2 c hc

/-- Every write keeps the canonical form. -/
theorem Memory.write_wf {m : Memory} (h : m.wf) (l : Nat) (v : Level) : (m.write l v).wf := by
  unfold Memory.write
  split
  · exact ⟨h.1.filter _, fun c hc => h.2 c (List.mem_of_mem_filter hc)⟩
  · exact Memory.insert_wf h l ‹_›

theorem Memory.writeAll_wf {m : Memory} (h : m.wf) (S : LineSet) (v : Level) : (m.writeAll S v).wf := by
  unfold Memory.writeAll
  induction S generalizing m with
  | nil => exact h
  | cons a S ih => exact ih (Memory.write_wf h a v)

theorem Memory.read_of_lt {m : Memory} {l : Nat} (h : ∀ c ∈ m, l < c.1) : m.read l = .unknown := by
  induction m with
  | nil => rfl
  | cons c m ih =>
    have hc := h c List.mem_cons_self
    rw [Memory.read, if_neg (by omega)]
    exact ih fun d hd => h d (List.mem_cons_of_mem _ hd)

/-- Equal memories are equal data: two memories in canonical form that read alike are the same list. -/
theorem Memory.ext_of_wf {m n : Memory} (hm : m.wf) (hn : n.wf) (h : ∀ l, m.read l = n.read l) : m = n := by
  induction m generalizing n with
  | nil =>
    cases n with
    | nil => rfl
    | cons c n =>
      have := h c.1
      simp only [Memory.read, if_true] at this
      exact absurd this.symm (hn.2 c List.mem_cons_self)
  | cons a m ih =>
    obtain ⟨ha, hs⟩ := List.pairwise_cons.mp hm.1
    cases n with
    | nil =>
      have := h a.1
      simp only [Memory.read, if_true] at this
      exact absurd this (hm.2 a List.mem_cons_self)
    | cons b n =>
      obtain ⟨hb, ht⟩ := List.pairwise_cons.mp hn.1
      have hkey : a.1 = b.1 := by
        rcases lt_trichotomy a.1 b.1 with hlt | heq | hgt
        · have h1 := h a.1
          rw [Memory.read_of_lt (m := b :: n) (fun d hd => by
            rcases List.mem_cons.mp hd with rfl | hd
            · exact hlt
            · exact lt_trans hlt (hb d hd))] at h1
          simp only [Memory.read, if_true] at h1
          exact absurd h1 (hm.2 a List.mem_cons_self)
        · exact heq
        · have h1 := h b.1
          rw [Memory.read_of_lt (m := a :: m) (fun d hd => by
            rcases List.mem_cons.mp hd with rfl | hd
            · exact hgt
            · exact lt_trans hgt (ha d hd))] at h1
          simp only [Memory.read, if_true] at h1
          exact absurd h1.symm (hn.2 b List.mem_cons_self)
      have hval : a.2 = b.2 := by
        have := h a.1
        simpa only [Memory.read, if_true, hkey] using this
      have hab : a = b := Prod.ext hkey hval
      subst hab
      congr 1
      refine ih ⟨hs, fun c hc => hm.2 c (List.mem_cons_of_mem _ hc)⟩
        ⟨ht, fun c hc => hn.2 c (List.mem_cons_of_mem _ hc)⟩ fun l => ?_
      by_cases hl : a.1 = l
      · subst hl; rw [Memory.read_of_lt ha, Memory.read_of_lt hb]
      · have := h l
        simpa only [Memory.read, if_neg hl] using this

/-! ### Events -/

@[simp] theorem Event.levels_setLines (S : LineSet) (m : Memory) :
    (Event.setLines S).levels m = m.writeAll S .high := rfl
@[simp] theorem Event.levels_clearLines (S : LineSet) (m : Memory) :
    (Event.clearLines S).levels m = m.writeAll S .low := rfl
@[simp] theorem Event.levels_configureOutput (l : Nat) (m : Memory) : (Event.configureOutput l).levels m = m := rfl
@[simp] theorem Event.levels_sleepUs (t : Nat) (m : Memory) : (Event.sleepUs t).levels m = m := rfl
@[simp] theorem Event.levels_response (a : Agent) (r : Response) (m : Memory) :
    (Event.response a r).levels m = m := rfl
@[simp] theorem Event.claims_configureOutput (l : Nat) (c : LineSet) :
    (Event.configureOutput l).claims c = LineSet.insert l c := rfl
@[simp] theorem Event.claims_setLines (S c : LineSet) : (Event.setLines S).claims c = c := rfl
@[simp] theorem Event.claims_clearLines (S c : LineSet) : (Event.clearLines S).claims c = c := rfl
@[simp] theorem Event.claims_sleepUs (t : Nat) (c : LineSet) : (Event.sleepUs t).claims c = c := rfl
@[simp] theorem Event.claims_response (a : Agent) (r : Response) (c : LineSet) :
    (Event.response a r).claims c = c := rfl

theorem Event.levels_wf (e : Event) {m : Memory} (h : m.wf) : (e.levels m).wf := by
  cases e <;> simp only [Event.levels] <;> first | exact h | exact Memory.writeAll_wf h _ _

theorem Event.claims_wf (e : Event) {c : LineSet} (h : LineSet.wf c) : LineSet.wf (e.claims c) := by
  cases e <;> simp only [Event.claims] <;> first | exact h | exact LineSet.insert_wf _ h

/-- Driving a set to HIGH or LOW gives those lines that level and leaves the others alone (R43, R271). -/
theorem drive_levels (S : LineSet) {v : Level} (hv : v ≠ .unknown) (m : Memory) :
    (drive S v).levels m = m.writeAll S v := by
  cases v <;> simp_all [drive, Event.levels]

@[simp] theorem drive_claims (S : LineSet) (v : Level) (c : LineSet) : (drive S v).claims c = c := by
  cases v <;> rfl

@[simp] theorem Event.isCall_configureOutput (l : Nat) : (Event.configureOutput l).isCall = true := rfl

@[simp] theorem drive_isCall (S : LineSet) (v : Level) : (drive S v).isCall = true := by cases v <;> rfl

@[simp] theorem drive_hold (S : LineSet) (v : Level) : (drive S v).hold = 0 := by cases v <;> rfl

theorem levelsOf_append (t u : List Event) :
    levelsOf (t ++ u) = u.foldl (fun m e => e.levels m) (levelsOf t) := List.foldl_append

theorem claimedOf_append (t u : List Event) :
    claimedOf (t ++ u) = u.foldl (fun c e => e.claims c) (claimedOf t) := List.foldl_append

@[simp] theorem holdSum_append (t u : List Event) : holdSum (t ++ u) = holdSum t + holdSum u := by
  simp [holdSum]

@[simp] theorem callsOf_response (a : Agent) (r : Response) (t : List Event) :
    callsOf (.response a r :: t) = callsOf t := rfl

/-- The line levels depend only on the backend calls of the trace (R50). -/
theorem levelsOf_callsOf (t : List Event) : levelsOf (callsOf t) = levelsOf t := by
  suffices h : ∀ m : Memory, (callsOf t).foldl (fun m e => e.levels m) m = t.foldl (fun m e => e.levels m) m from h []
  induction t with
  | nil => exact fun _ => rfl
  | cons e t ih => intro m; cases e <;> exact ih _

/-- The claims depend only on the backend calls of the trace (R50). -/
theorem claimedOf_callsOf (t : List Event) : claimedOf (callsOf t) = claimedOf t := by
  suffices h : ∀ c : LineSet, (callsOf t).foldl (fun c e => e.claims c) c = t.foldl (fun c e => e.claims c) c from h []
  induction t with
  | nil => exact fun _ => rfl
  | cons e t ih => intro c; cases e <;> exact ih _

@[simp] theorem callsOf_append (t u : List Event) : callsOf (t ++ u) = callsOf t ++ callsOf u :=
  List.filter_append ..

end Sys2Proof.Machine
end

