-- ==== Sys2Proof/Laws/Lines.lean ====
section
/-! SUPPORT. The lines a configuration drives: which segment lines a mask lights, what claiming a list of lines does, and
that no call drives a line UNKNOWN. -/

namespace Sys2Proof.Machine

/-- The levels of R270 are LOW and HIGH, and ACTIVE is not INACTIVE. -/
theorem Polarity.levels_ne (p : Polarity) :
    p.digitActive ≠ .unknown ∧ p.digitInactive ≠ .unknown ∧ p.segActive ≠ .unknown ∧ p.segInactive ≠ .unknown ∧
      p.digitActive ≠ p.digitInactive ∧ p.segActive ≠ p.segInactive := by
  cases p <;> decide

/-- A line is lit exactly when it is the line of a segment whose bit is 1 (R277). -/
theorem mem_litLinesFrom (m : Byte) (s : Nat) (ls : List Nat) (k : Nat) :
    k ∈ litLinesFrom m s ls ↔ ∃ g, ls[g]? = some k ∧ m.getLsbD (s + g) = true := by
  induction ls generalizing s with
  | nil => simp [litLinesFrom]
  | cons a as ih =>
    have shift : (∃ g, (a :: as)[g]? = some k ∧ m.getLsbD (s + g) = true) ↔
        (a = k ∧ m.getLsbD s = true) ∨ k ∈ litLinesFrom m (s + 1) as := by
      rw [ih]
      constructor
      · rintro ⟨g, hg, hm⟩
        cases g with
        | zero => exact .inl ⟨by simpa using hg, hm⟩
        | succ g => exact .inr ⟨g, by simpa using hg, by rw [← hm]; congr 1; omega⟩
      · rintro (⟨hak, hm⟩ | ⟨g, hg, hm⟩)
        · exact ⟨0, by simpa using hak, hm⟩
        · exact ⟨g + 1, by simpa using hg, by rw [← hm]; congr 1; omega⟩
    rw [shift, litLinesFrom]
    split <;> rename_i hm <;> simp [hm, @eq_comm _ k a]

theorem Cfg.mem_litSegs (cfg : Cfg) (m : Byte) (k : Nat) :
    k ∈ cfg.litSegs m ↔ ∃ g, cfg.seg[g]? = some k ∧ m.getLsbD g = true := by
  simp [Cfg.litSegs, mem_litLinesFrom]

@[simp] theorem Cfg.mem_allSegs (cfg : Cfg) (k : Nat) : k ∈ cfg.allSegs ↔ k ∈ cfg.seg := by
  simp [Cfg.allSegs]

/-- Claiming and driving a list of lines leaves them at that level and the others alone (R186). -/
theorem read_claimCalls {v : Level} (hv : v ≠ .unknown) (ls : List Nat) (m : Memory) (k : Nat) :
    ((ls.flatMap (claimCalls v)).foldl (fun m e => e.levels m) m).read k = if k ∈ ls then v else m.read k := by
  induction ls generalizing m with
  | nil => simp
  | cons a as ih =>
    simp only [List.flatMap_cons, List.foldl_append, ih, claimCalls, List.foldl_cons, List.foldl_nil,
      drive_levels _ hv, Memory.read_writeAll, Event.levels_configureOutput, List.mem_cons]
    split <;> split <;> simp_all

/-- Claiming and driving a list of lines claims them, in order (R186). -/
theorem claims_claimCalls (v : Level) (ls : List Nat) (c : LineSet) :
    (ls.flatMap (claimCalls v)).foldl (fun c e => e.claims c) c = ls.foldl (fun c l => LineSet.insert l c) c := by
  induction ls generalizing c with
  | nil => rfl
  | cons a as ih => simp [claimCalls, ih]

/-- The claims a successful CONFIG adds (R42). -/
theorem claims_configCalls (cfg : Cfg) (c : LineSet) :
    (configCalls cfg).foldl (fun c e => e.claims c) c = cfg.lines.foldl (fun c l => LineSet.insert l c) c := by
  simp [configCalls, Cfg.lines, List.foldl_append, claims_claimCalls]

/-- Every event of CONFIG's calls is a backend call. -/
theorem configCalls_isCall (cfg : Cfg) : (configCalls cfg).all Event.isCall = true := by
  simp [configCalls, claimCalls]

end Sys2Proof.Machine
end

