-- ==== Sys2Proof/Laws/PerInstr.lean ====
section
/-! SUPPORT. A law of every command, one lemma per command: the words a well-formed command encodes to are one command
word and exactly the payload words that command word asks for (R141). -/

namespace Sys2Proof.Laws.EncodedLength

/-- The encoding is a command word and the payload it announces. -/
def Statement (i : Instr) : Prop :=
  i.wellFormed = true → ∃ w ps, encode i = w :: ps ∧ ps.length = payloadLength w

theorem packText_length : ∀ t : List Byte, (packText t).length = (t.length + 3) / 4
  | [] => rfl
  | [_] => by simp [packText]
  | [_, _] => by simp [packText]
  | [_, _, _] => by simp [packText]
  | _ :: _ :: _ :: _ :: rest => by
    simp only [packText, List.length_cons, packText_length rest]; omega

theorem lookup (c : Byte) : Statement (.lookup c) := fun _ =>
  ⟨_, _, rfl, by rw [payloadLength_commandWord]; rfl⟩

theorem setdigit (i : Nat) (c : Byte) : Statement (.setdigit i c) := fun _ =>
  ⟨_, _, rfl, by rw [payloadLength_commandWord]; rfl⟩

theorem setseg (i g : Nat) : Statement (.setseg i g) := fun _ =>
  ⟨_, _, rfl, by rw [payloadLength_commandWord]; rfl⟩

theorem setcomma (i : Nat) : Statement (.setcomma i) := fun _ =>
  ⟨_, _, rfl, by rw [payloadLength_commandWord]; rfl⟩

theorem setstr (t : List Byte) : Statement (.setstr t) := fun h => by
  refine ⟨_, _, rfl, ?_⟩
  simp only [Instr.wellFormed, fitsLen, decide_eq_true_eq] at h
  rw [payloadLength_commandWord, if_pos rfl, packText_length]
  simp only [BitVec.toNat_ofNat]
  omega

theorem refresh : Statement .refresh := fun _ => ⟨_, _, rfl, by rw [payloadLength_commandWord]; rfl⟩

theorem config (pol : BitVec 2) (on dly : Int) (digs segs : List Nat) :
    Statement (.config pol on dly digs segs) := fun h => by
  refine ⟨_, _, rfl, ?_⟩
  simp only [Instr.wellFormed, fitsIdx, fitsB, Bool.and_eq_true, decide_eq_true_eq] at h
  obtain ⟨⟨⟨⟨-, hd⟩, hs⟩, -⟩, -⟩ := h
  rw [payloadLength_commandWord, if_neg (by decide), if_pos rfl]
  simp only [List.length_cons, List.length_append, List.length_map, BitVec.toNat_ofNat]
  omega

end Sys2Proof.Laws.EncodedLength
end

