-- ==== Sys2Proof/Laws/State.lean ====
section
/-! SUPPORT. One lemma per field per update of the state, so that no later proof unfolds a record update. -/

namespace Sys2Proof.Machine

variable (s : State)

/-! ### emit -/

@[simp] theorem State.emit_config (e : Event) : (s.emit e).config = s.config := rfl
@[simp] theorem State.emit_life (e : Event) : (s.emit e).life = s.life := rfl
@[simp] theorem State.emit_claimed (e : Event) : (s.emit e).claimed = e.claims s.claimed := rfl
@[simp] theorem State.emit_lvl (e : Event) : (s.emit e).lvl = e.levels s.lvl := rfl
@[simp] theorem State.emit_fsm (e : Event) : (s.emit e).fsm = s.fsm := rfl
@[simp] theorem State.emit_trace (e : Event) : (s.emit e).trace = s.trace ++ [e] := rfl
@[simp] theorem State.emit_callerTask (e : Event) : (s.emit e).callerTask = s.callerTask := rfl
@[simp] theorem State.emit_writerTask (e : Event) : (s.emit e).writerTask = s.writerTask := rfl
@[simp] theorem State.emit_callerPort (e : Event) : (s.emit e).callerPort = s.callerPort := rfl
@[simp] theorem State.emit_writerPort (e : Event) : (s.emit e).writerPort = s.writerPort := rfl
@[simp] theorem State.emit_turn (e : Event) : (s.emit e).turn = s.turn := rfl
@[simp] theorem State.emit_sched (e : Event) : (s.emit e).sched = s.sched := rfl

/-! ### respond -/

@[simp] theorem State.respond_config (r : Response) : (s.respond r).config = s.config := rfl
@[simp] theorem State.respond_life (r : Response) : (s.respond r).life = s.life := rfl
@[simp] theorem State.respond_claimed (r : Response) : (s.respond r).claimed = s.claimed := rfl
@[simp] theorem State.respond_lvl (r : Response) : (s.respond r).lvl = s.lvl := rfl
@[simp] theorem State.respond_fsm (r : Response) : (s.respond r).fsm = s.fsm := rfl
@[simp] theorem State.respond_trace (r : Response) : (s.respond r).trace = s.trace ++ [.response s.turn r] := rfl
@[simp] theorem State.respond_callerTask (r : Response) : (s.respond r).callerTask = s.callerTask := rfl
@[simp] theorem State.respond_writerTask (r : Response) : (s.respond r).writerTask = s.writerTask := rfl
@[simp] theorem State.respond_callerPort (r : Response) : (s.respond r).callerPort = s.callerPort := rfl
@[simp] theorem State.respond_writerPort (r : Response) : (s.respond r).writerPort = s.writerPort := rfl
@[simp] theorem State.respond_turn (r : Response) : (s.respond r).turn = s.turn := rfl
@[simp] theorem State.respond_sched (r : Response) : (s.respond r).sched = s.sched := rfl

/-! ### answer -/

@[simp] theorem State.answer_config (d : Byte) : (s.answer d).config = s.config := rfl
@[simp] theorem State.answer_life (d : Byte) : (s.answer d).life = s.life := rfl
@[simp] theorem State.answer_claimed (d : Byte) : (s.answer d).claimed = s.claimed := rfl
@[simp] theorem State.answer_lvl (d : Byte) : (s.answer d).lvl = s.lvl := rfl
@[simp] theorem State.answer_fsm (d : Byte) : (s.answer d).fsm = s.fsm := rfl
@[simp] theorem State.answer_trace (d : Byte) : (s.answer d).trace = s.trace ++ [.response s.turn { status := .ok, data := d, value := 0 }] := rfl
@[simp] theorem State.answer_callerTask (d : Byte) : (s.answer d).callerTask = s.callerTask := rfl
@[simp] theorem State.answer_writerTask (d : Byte) : (s.answer d).writerTask = s.writerTask := rfl
@[simp] theorem State.answer_callerPort (d : Byte) : (s.answer d).callerPort = s.callerPort := rfl
@[simp] theorem State.answer_writerPort (d : Byte) : (s.answer d).writerPort = s.writerPort := rfl
@[simp] theorem State.answer_turn (d : Byte) : (s.answer d).turn = s.turn := rfl
@[simp] theorem State.answer_sched (d : Byte) : (s.answer d).sched = s.sched := rfl

/-! ### raise -/

@[simp] theorem State.raise_config (e : Status) (v : Value) : (s.raise e v).config = s.config := rfl
@[simp] theorem State.raise_life (e : Status) (v : Value) : (s.raise e v).life = s.life := rfl
@[simp] theorem State.raise_claimed (e : Status) (v : Value) : (s.raise e v).claimed = s.claimed := rfl
@[simp] theorem State.raise_lvl (e : Status) (v : Value) : (s.raise e v).lvl = s.lvl := rfl
@[simp] theorem State.raise_fsm (e : Status) (v : Value) : (s.raise e v).fsm = s.fsm := rfl
@[simp] theorem State.raise_trace (e : Status) (v : Value) : (s.raise e v).trace = s.trace ++ [.response s.turn { status := e, data := 0, value := v }] := rfl
@[simp] theorem State.raise_callerTask (e : Status) (v : Value) : (s.raise e v).callerTask = s.callerTask := rfl
@[simp] theorem State.raise_writerTask (e : Status) (v : Value) : (s.raise e v).writerTask = s.writerTask := rfl
@[simp] theorem State.raise_callerPort (e : Status) (v : Value) : (s.raise e v).callerPort = s.callerPort := rfl
@[simp] theorem State.raise_writerPort (e : Status) (v : Value) : (s.raise e v).writerPort = s.writerPort := rfl
@[simp] theorem State.raise_turn (e : Status) (v : Value) : (s.raise e v).turn = s.turn := rfl
@[simp] theorem State.raise_sched (e : Status) (v : Value) : (s.raise e v).sched = s.sched := rfl

/-! ### bufWrite -/

theorem State.bufWrite_eq (i : Nat) (v : Byte) {cfg : Cfg} {buf : List Byte} (h : s.life = .constructed cfg buf) :
    s.bufWrite i v = { s with life := .constructed cfg (buf.set i v) } := by
  simp only [State.bufWrite, h]

@[simp] theorem State.bufWrite_config (i : Nat) (v : Byte) : (s.bufWrite i v).config = s.config := by
  unfold State.bufWrite; split <;> rfl
@[simp] theorem State.bufWrite_claimed (i : Nat) (v : Byte) : (s.bufWrite i v).claimed = s.claimed := by
  unfold State.bufWrite; split <;> rfl
@[simp] theorem State.bufWrite_lvl (i : Nat) (v : Byte) : (s.bufWrite i v).lvl = s.lvl := by
  unfold State.bufWrite; split <;> rfl
@[simp] theorem State.bufWrite_fsm (i : Nat) (v : Byte) : (s.bufWrite i v).fsm = s.fsm := by
  unfold State.bufWrite; split <;> rfl
@[simp] theorem State.bufWrite_trace (i : Nat) (v : Byte) : (s.bufWrite i v).trace = s.trace := by
  unfold State.bufWrite; split <;> rfl
@[simp] theorem State.bufWrite_callerTask (i : Nat) (v : Byte) : (s.bufWrite i v).callerTask = s.callerTask := by
  unfold State.bufWrite; split <;> rfl
@[simp] theorem State.bufWrite_writerTask (i : Nat) (v : Byte) : (s.bufWrite i v).writerTask = s.writerTask := by
  unfold State.bufWrite; split <;> rfl
@[simp] theorem State.bufWrite_callerPort (i : Nat) (v : Byte) : (s.bufWrite i v).callerPort = s.callerPort := by
  unfold State.bufWrite; split <;> rfl
@[simp] theorem State.bufWrite_writerPort (i : Nat) (v : Byte) : (s.bufWrite i v).writerPort = s.writerPort := by
  unfold State.bufWrite; split <;> rfl
@[simp] theorem State.bufWrite_turn (i : Nat) (v : Byte) : (s.bufWrite i v).turn = s.turn := by
  unfold State.bufWrite; split <;> rfl
@[simp] theorem State.bufWrite_sched (i : Nat) (v : Byte) : (s.bufWrite i v).sched = s.sched := by
  unfold State.bufWrite; split <;> rfl
@[simp] theorem State.bufWrite_cfg (i : Nat) (v : Byte) : (s.bufWrite i v).cfg? = s.cfg? := by
  unfold State.bufWrite; split <;> simp_all [State.cfg?]
@[simp] theorem State.bufWrite_buf (i : Nat) (v : Byte) : (s.bufWrite i v).buf = s.buf.set i v := by
  unfold State.bufWrite; split <;> simp_all [State.buf]

/-! ### setTask -/

@[simp] theorem State.setTask_config (t : Task) : (s.setTask t).config = s.config := by
  unfold State.setTask; split <;> rfl
@[simp] theorem State.setTask_life (t : Task) : (s.setTask t).life = s.life := by
  unfold State.setTask; split <;> rfl
@[simp] theorem State.setTask_claimed (t : Task) : (s.setTask t).claimed = s.claimed := by
  unfold State.setTask; split <;> rfl
@[simp] theorem State.setTask_lvl (t : Task) : (s.setTask t).lvl = s.lvl := by
  unfold State.setTask; split <;> rfl
@[simp] theorem State.setTask_fsm (t : Task) : (s.setTask t).fsm = s.fsm := by
  unfold State.setTask; split <;> rfl
@[simp] theorem State.setTask_trace (t : Task) : (s.setTask t).trace = s.trace := by
  unfold State.setTask; split <;> rfl
@[simp] theorem State.setTask_callerTask (t : Task) : (s.setTask t).callerTask = if s.turn = .caller then t else s.callerTask := by
  unfold State.setTask; cases s.turn <;> rfl
@[simp] theorem State.setTask_writerTask (t : Task) : (s.setTask t).writerTask = if s.turn = .writer then t else s.writerTask := by
  unfold State.setTask; cases s.turn <;> rfl
@[simp] theorem State.setTask_callerPort (t : Task) : (s.setTask t).callerPort = s.callerPort := by
  unfold State.setTask; split <;> rfl
@[simp] theorem State.setTask_writerPort (t : Task) : (s.setTask t).writerPort = s.writerPort := by
  unfold State.setTask; split <;> rfl
@[simp] theorem State.setTask_turn (t : Task) : (s.setTask t).turn = s.turn := by
  unfold State.setTask; split <;> rfl
@[simp] theorem State.setTask_sched (t : Task) : (s.setTask t).sched = s.sched := by
  unfold State.setTask; split <;> rfl
@[simp] theorem State.setTask_task (t : Task) : (s.setTask t).task = t := by
  unfold State.task State.setTask; cases s.turn <;> simp

/-! ### setPending -/

@[simp] theorem State.setPending_config (ws : List Word) : (s.setPending ws).config = s.config := by
  unfold State.setPending; split <;> rfl
@[simp] theorem State.setPending_life (ws : List Word) : (s.setPending ws).life = s.life := by
  unfold State.setPending; split <;> rfl
@[simp] theorem State.setPending_claimed (ws : List Word) : (s.setPending ws).claimed = s.claimed := by
  unfold State.setPending; split <;> rfl
@[simp] theorem State.setPending_lvl (ws : List Word) : (s.setPending ws).lvl = s.lvl := by
  unfold State.setPending; split <;> rfl
@[simp] theorem State.setPending_fsm (ws : List Word) : (s.setPending ws).fsm = s.fsm := by
  unfold State.setPending; split <;> rfl
@[simp] theorem State.setPending_trace (ws : List Word) : (s.setPending ws).trace = s.trace := by
  unfold State.setPending; split <;> rfl
@[simp] theorem State.setPending_callerTask (ws : List Word) : (s.setPending ws).callerTask = s.callerTask := by
  unfold State.setPending; split <;> rfl
@[simp] theorem State.setPending_writerTask (ws : List Word) : (s.setPending ws).writerTask = s.writerTask := by
  unfold State.setPending; split <;> rfl
@[simp] theorem State.setPending_callerPort (ws : List Word) : (s.setPending ws).callerPort = if s.turn = .caller then ws else s.callerPort := by
  unfold State.setPending; cases s.turn <;> rfl
@[simp] theorem State.setPending_writerPort (ws : List Word) : (s.setPending ws).writerPort = if s.turn = .writer then ws else s.writerPort := by
  unfold State.setPending; cases s.turn <;> rfl
@[simp] theorem State.setPending_turn (ws : List Word) : (s.setPending ws).turn = s.turn := by
  unfold State.setPending; split <;> rfl
@[simp] theorem State.setPending_sched (ws : List Word) : (s.setPending ws).sched = s.sched := by
  unfold State.setPending; split <;> rfl
@[simp] theorem State.setPending_pending (ws : List Word) : (s.setPending ws).pending = ws := by
  unfold State.pending State.setPending; cases s.turn <;> simp

/-! ### beginTurn -/

@[simp] theorem State.beginTurn_config : s.beginTurn.config = s.config := by
  unfold State.beginTurn; split <;> rfl
@[simp] theorem State.beginTurn_life : s.beginTurn.life = s.life := by
  unfold State.beginTurn; split <;> rfl
@[simp] theorem State.beginTurn_claimed : s.beginTurn.claimed = s.claimed := by
  unfold State.beginTurn; split <;> rfl
@[simp] theorem State.beginTurn_lvl : s.beginTurn.lvl = s.lvl := by
  unfold State.beginTurn; split <;> rfl
@[simp] theorem State.beginTurn_fsm : s.beginTurn.fsm = s.fsm := by
  unfold State.beginTurn; split <;> rfl
@[simp] theorem State.beginTurn_trace : s.beginTurn.trace = s.trace := by
  unfold State.beginTurn; split <;> rfl
@[simp] theorem State.beginTurn_callerTask : s.beginTurn.callerTask = s.callerTask := by
  unfold State.beginTurn; split <;> rfl
@[simp] theorem State.beginTurn_writerTask : s.beginTurn.writerTask = s.writerTask := by
  unfold State.beginTurn; split <;> rfl
@[simp] theorem State.beginTurn_callerPort : s.beginTurn.callerPort = s.callerPort := by
  unfold State.beginTurn; split <;> rfl
@[simp] theorem State.beginTurn_writerPort : s.beginTurn.writerPort = s.writerPort := by
  unfold State.beginTurn; split <;> rfl
@[simp] theorem State.beginTurn_sched : s.beginTurn.sched = s.sched.tail := by
  unfold State.beginTurn; split <;> simp_all
theorem State.beginTurn_caller (h : s.config.asyncWriter = false) : s.beginTurn.turn = .caller := by
  unfold State.beginTurn; split <;> simp_all

/-! ### advance -/

@[simp] theorem State.advance_config (f : Fsm) : (s.advance f).config = s.config := by
  cases f <;> rfl
@[simp] theorem State.advance_life (f : Fsm) : (s.advance f).life = s.life := by
  cases f <;> rfl
@[simp] theorem State.advance_claimed (f : Fsm) : (s.advance f).claimed = s.claimed := by
  cases f <;> rfl
@[simp] theorem State.advance_lvl (f : Fsm) : (s.advance f).lvl = s.lvl := by
  cases f <;> rfl
@[simp] theorem State.advance_fsm (f : Fsm) : (s.advance f).fsm = f := by
  cases f <;> rfl
theorem State.advance_trace (f : Fsm) : (s.advance f).trace =
    s.trace ++ (if f = .idle then [.response s.turn { status := .ok, data := 0, value := 0 }] else []) := by
  cases f <;> simp [State.advance]
@[simp] theorem State.advance_callerTask (f : Fsm) : (s.advance f).callerTask = s.callerTask := by
  cases f <;> rfl
@[simp] theorem State.advance_writerTask (f : Fsm) : (s.advance f).writerTask = s.writerTask := by
  cases f <;> rfl
@[simp] theorem State.advance_callerPort (f : Fsm) : (s.advance f).callerPort = s.callerPort := by
  cases f <;> rfl
@[simp] theorem State.advance_writerPort (f : Fsm) : (s.advance f).writerPort = s.writerPort := by
  cases f <;> rfl
@[simp] theorem State.advance_turn (f : Fsm) : (s.advance f).turn = s.turn := by
  cases f <;> rfl
@[simp] theorem State.advance_sched (f : Fsm) : (s.advance f).sched = s.sched := by
  cases f <;> rfl

/-! ### emitAll -/

theorem State.emitAll_cons (e : Event) (es : List Event) : s.emitAll (e :: es) = (s.emit e).emitAll es := rfl
@[simp] theorem State.emitAll_config (es : List Event) : (s.emitAll es).config = s.config := by
  induction es generalizing s with
  | nil => simp [State.emitAll]
  | cons e es ih => rw [State.emitAll_cons, ih]; simp
@[simp] theorem State.emitAll_life (es : List Event) : (s.emitAll es).life = s.life := by
  induction es generalizing s with
  | nil => simp [State.emitAll]
  | cons e es ih => rw [State.emitAll_cons, ih]; simp
@[simp] theorem State.emitAll_claimed (es : List Event) : (s.emitAll es).claimed = es.foldl (fun c e => e.claims c) s.claimed := by
  induction es generalizing s with
  | nil => simp [State.emitAll]
  | cons e es ih => rw [State.emitAll_cons, ih]; simp
@[simp] theorem State.emitAll_lvl (es : List Event) : (s.emitAll es).lvl = es.foldl (fun m e => e.levels m) s.lvl := by
  induction es generalizing s with
  | nil => simp [State.emitAll]
  | cons e es ih => rw [State.emitAll_cons, ih]; simp
@[simp] theorem State.emitAll_fsm (es : List Event) : (s.emitAll es).fsm = s.fsm := by
  induction es generalizing s with
  | nil => simp [State.emitAll]
  | cons e es ih => rw [State.emitAll_cons, ih]; simp
@[simp] theorem State.emitAll_trace (es : List Event) : (s.emitAll es).trace = s.trace ++ es := by
  induction es generalizing s with
  | nil => simp [State.emitAll]
  | cons e es ih => rw [State.emitAll_cons, ih]; simp
@[simp] theorem State.emitAll_callerTask (es : List Event) : (s.emitAll es).callerTask = s.callerTask := by
  induction es generalizing s with
  | nil => simp [State.emitAll]
  | cons e es ih => rw [State.emitAll_cons, ih]; simp
@[simp] theorem State.emitAll_writerTask (es : List Event) : (s.emitAll es).writerTask = s.writerTask := by
  induction es generalizing s with
  | nil => simp [State.emitAll]
  | cons e es ih => rw [State.emitAll_cons, ih]; simp
@[simp] theorem State.emitAll_callerPort (es : List Event) : (s.emitAll es).callerPort = s.callerPort := by
  induction es generalizing s with
  | nil => simp [State.emitAll]
  | cons e es ih => rw [State.emitAll_cons, ih]; simp
@[simp] theorem State.emitAll_writerPort (es : List Event) : (s.emitAll es).writerPort = s.writerPort := by
  induction es generalizing s with
  | nil => simp [State.emitAll]
  | cons e es ih => rw [State.emitAll_cons, ih]; simp
@[simp] theorem State.emitAll_turn (es : List Event) : (s.emitAll es).turn = s.turn := by
  induction es generalizing s with
  | nil => simp [State.emitAll]
  | cons e es ih => rw [State.emitAll_cons, ih]; simp
@[simp] theorem State.emitAll_sched (es : List Event) : (s.emitAll es).sched = s.sched := by
  induction es generalizing s with
  | nil => simp [State.emitAll]
  | cons e es ih => rw [State.emitAll_cons, ih]; simp

/-! ### The agent's view -/

@[simp] theorem State.respond_task (r : Response) : (s.respond r).task = s.task := rfl
@[simp] theorem State.answer_task (d : Byte) : (s.answer d).task = s.task := rfl
@[simp] theorem State.raise_task (e : Status) (v : Value) : (s.raise e v).task = s.task := rfl
@[simp] theorem State.bufWrite_task (i : Nat) (v : Byte) : (s.bufWrite i v).task = s.task := by
  simp [State.task]
@[simp] theorem State.setPending_task (ws : List Word) : (s.setPending ws).task = s.task := by
  simp [State.task]

end Sys2Proof.Machine
end

