-- ==== Sys2Proof/Laws/Tasks.lean ====
section
/-! SUPPORT. What one atomic step of a buffer command can do, and that a command's atomic steps end. -/

namespace Sys2Proof.Machine

theorem BufferFrame.refl (s : State) : BufferFrame s s := by constructor <;> rfl

theorem BufferFrame.trans {s t u : State} (h : BufferFrame s t) (k : BufferFrame t u) : BufferFrame s u where
  config := k.config.trans h.config
  cfg := k.cfg.trans h.cfg
  length := k.length.trans h.length
  claimed := k.claimed.trans h.claimed
  lvl := k.lvl.trans h.lvl
  fsm := k.fsm.trans h.fsm
  calls := k.calls.trans h.calls
  callerPort := k.callerPort.trans h.callerPort
  writerPort := k.writerPort.trans h.writerPort
  turn := k.turn.trans h.turn
  sched := k.sched.trans h.sched
  otherTask := k.otherTask.trans h.otherTask

/-! ### Each operation a buffer command is made of -/

theorem State.respond_frame (s : State) (r : Response) : BufferFrame s (s.respond r) := by
  constructor <;> first | rfl | simp [callsOf, Event.isCall]

theorem State.answer_frame (s : State) (d : Byte) : BufferFrame s (s.answer d) := s.respond_frame _

theorem State.raise_frame (s : State) (e : Status) (v : Value) : BufferFrame s (s.raise e v) := s.respond_frame _

theorem State.setTask_frame (s : State) (t : Task) : BufferFrame s (s.setTask t) := by
  constructor <;> simp [State.cfg?, State.buf, State.otherTask]
  cases h : s.turn <;> simp

theorem State.bufWrite_frame (s : State) (i : Nat) (v : Byte) : BufferFrame s (s.bufWrite i v) := by
  constructor <;> simp [State.otherTask]

theorem State.finishTask_frame (s : State) : BufferFrame s s.finishTask :=
  (s.setTask_frame _).trans (State.answer_frame _ _)

theorem State.abortTask_frame (s : State) (e : Status) (v : Value) : BufferFrame s (s.abortTask e v) :=
  (s.setTask_frame _).trans (State.raise_frame _ _ _)

theorem State.startDots_frame (s : State) (dots : List Nat) : BufferFrame s (s.startDots dots) := by
  cases dots
  · exact s.finishTask_frame
  · exact s.setTask_frame _

theorem State.startRender_frame (s : State) (d : Nat) (chars : List Byte) (dots : List Nat) :
    BufferFrame s (s.startRender d chars dots) := by
  cases chars
  · exact s.startDots_frame dots
  · exact s.setTask_frame _

theorem State.renderChar_frame (s : State) (d : Nat) (c : Byte) (cs : List Byte) (dots : List Nat) :
    BufferFrame s (s.renderChar d c cs dots) := by
  unfold State.renderChar
  split
  · exact s.abortTask_frame _ _
  · exact (s.bufWrite_frame _ _).trans (State.startRender_frame _ _ _ _)

theorem resumeTask_frame (s : State) : BufferFrame s (resumeTask s) := by
  unfold resumeTask
  split
  · exact BufferFrame.refl s
  · exact (s.bufWrite_frame _ _).trans (State.finishTask_frame _)
  · exact s.startDots_frame _
  · exact s.renderChar_frame _ _ _ _
  · exact s.finishTask_frame
  · exact s.setTask_frame _
  · exact (s.bufWrite_frame _ _).trans (State.startDots_frame _ _)

theorem drain_frame (k : Nat) (s : State) : BufferFrame s (drain k s) := by
  induction k generalizing s with
  | zero => exact BufferFrame.refl s
  | succ k ih =>
    unfold drain
    split
    · exact BufferFrame.refl s
    · exact (resumeTask_frame s).trans (ih _)

theorem State.settle_frame (s : State) : BufferFrame s s.settle := by
  unfold State.settle
  split
  · exact BufferFrame.refl s
  · exact drain_frame _ s

/-! ### A command's atomic steps end -/

@[simp] theorem Task.size_none : Task.none.size = 0 := rfl
@[simp] theorem Task.size_segWrite (i g : Nat) (v : Byte) : (Task.segWrite i g v).size = 1 := rfl
@[simp] theorem Task.size_render (d : Nat) (chars : List Byte) (dots : List Nat) :
    (Task.render d chars dots).size = chars.length + 2 * dots.length + 2 := rfl
@[simp] theorem Task.size_dotRead (dots : List Nat) : (Task.dotRead dots).size = 2 * dots.length + 1 := rfl
@[simp] theorem Task.size_dotWrite (d : Nat) (v : Byte) (dots : List Nat) :
    (Task.dotWrite d v dots).size = 2 * dots.length + 2 := rfl

@[simp] theorem State.finishTask_task (s : State) : s.finishTask.task = .none := by simp [State.finishTask]

@[simp] theorem State.abortTask_task (s : State) (e : Status) (v : Value) : (s.abortTask e v).task = .none := by
  simp [State.abortTask]

theorem State.startDots_size (s : State) (dots : List Nat) :
    (s.startDots dots).task.size ≤ 2 * dots.length + 1 := by
  cases dots <;> simp [State.startDots]

theorem State.startRender_size (s : State) (d : Nat) (chars : List Byte) (dots : List Nat) :
    (s.startRender d chars dots).task.size ≤ chars.length + 2 * dots.length + 2 := by
  cases chars
  · have := s.startDots_size dots
    simp only [State.startRender, List.length_nil]; omega
  · simp [State.startRender]

/-- Each atomic step brings the command nearer to its response. -/
theorem resumeTask_size_lt (s : State) (h : s.task ≠ .none) : (resumeTask s).task.size < s.task.size := by
  unfold resumeTask
  split
  · contradiction
  · rename_i ht; simp [ht]
  · rename_i dots ht
    have := s.startDots_size dots
    simp only [ht, Task.size_render, List.length_nil]; omega
  · rename_i d c cs dots ht
    unfold State.renderChar
    split
    · simp [ht]
    · have := State.startRender_size (s.bufWrite d ‹Byte›) (d + 1) cs dots
      simp only [ht, Task.size_render, List.length_cons]; omega
  · rename_i ht; simp [ht]
  · rename_i ht; simp only [ht, State.setTask_task, Task.size_dotRead, Task.size_dotWrite, List.length_cons]; omega
  · rename_i d v ds ht
    have := State.startDots_size (s.bufWrite d (v ||| 0x80#8)) ds
    simp only [ht, Task.size_dotWrite]; omega

theorem drain_task (k : Nat) (s : State) (h : s.task.size ≤ k) : (drain k s).task = .none := by
  induction k generalizing s with
  | zero =>
    unfold drain
    cases hs : s.task <;> simp_all [Task.size]
  | succ k ih =>
    unfold drain
    split
    · assumption
    · rename_i hne
      have := resumeTask_size_lt s (by simpa using hne)
      exact ih _ (by omega)

/-- With no writer a buffer command runs to its response in one step (log 1). -/
theorem State.settle_task (s : State) (h : s.config.asyncWriter = false) : s.settle.task = .none := by
  simp only [State.settle, h]
  exact drain_task _ _ le_rfl

/-- More fuel than the command needs changes nothing. -/
theorem drain_of_none (k : Nat) (s : State) (h : s.task = .none) : drain k s = s := by
  cases k <;> simp [drain, h]

theorem drain_succ (k : Nat) (s : State) (h : s.task ≠ .none) : drain (k + 1) s = drain k (resumeTask s) := by
  conv_lhs => unfold drain
  split
  · contradiction
  · rfl

/-- One more unit of fuel than the command needs changes nothing. -/
theorem drain_mono {k : Nat} {s : State} (h : s.task.size ≤ k) : drain (k + 1) s = drain k s := by
  induction k generalizing s with
  | zero =>
    have hs : s.task = .none := by cases hs : s.task <;> simp_all [Task.size]
    rw [drain_of_none _ _ hs, drain_of_none _ _ hs]
  | succ k ih =>
    by_cases hs : s.task = .none
    · rw [drain_of_none _ _ hs, drain_of_none _ _ hs]
    · rw [drain_succ _ _ hs, drain_succ _ _ hs]
      exact ih (by have := resumeTask_size_lt s hs; omega)

/-- Draining does not depend on how much fuel is left over. -/
theorem drain_eq_of_size_le {k : Nat} {s : State} (h : s.task.size ≤ k) : drain k s = drain s.task.size s := by
  induction k, h using Nat.le_induction with
  | base => rfl
  | succ k hk ih => rw [drain_mono hk, ih]

end Sys2Proof.Machine
end

