-- ==== Sys2Proof/Laws/Step.lean ====
section
/-! SUPPORT. What a command and a step can do, said once: inversion lemmas for `runPhase`, `exec` and `step`. -/

namespace Sys2Proof.Machine

/-- A phase that runs: the block is configured, the digit exists, and the next state is the call and the advance. -/
theorem runPhase_cases {d : Nat} {p : Phase} {s t : State} (h : runPhase d p s = .next t) :
    ∃ cfg buf l, s.life = .constructed cfg buf ∧ cfg.dig[d]? = some l ∧
      t = (s.emit (phaseCall cfg l (buf.getD d 0) p)).advance (nextFsm cfg.digits d p) := by
  unfold runPhase at h
  split at h
  · cases h
  · rename_i cfg buf hlife
    split at h
    · cases h
    · rename_i l hl
      exact ⟨cfg, buf, l, hlife, hl, by simpa using h.symm⟩

theorem State.setDigit_frame (cfg : Cfg) (i : Nat) (c : Byte) (s : State) : BufferFrame s (s.setDigit cfg i c) := by
  unfold State.setDigit
  split
  · exact s.raise_frame _ _
  · split
    · exact s.raise_frame _ _
    · exact (s.bufWrite_frame _ _).trans (State.answer_frame _ _)

theorem execLookup_frame {c : Byte} {s t : State} (h : execLookup c s = .next t) : BufferFrame s t := by
  unfold execLookup at h
  split at h <;> cases h
  · exact s.raise_frame _ _
  · exact s.answer_frame _

theorem execSetdigit_frame {i : Nat} {c : Byte} {s t : State} (h : execSetdigit i c s = .next t) :
    BufferFrame s t := by
  unfold execSetdigit at h
  split at h <;> cases h
  · exact s.raise_frame _ _
  · exact s.setDigit_frame _ _ _

theorem execSetcomma_frame {i : Nat} {s t : State} (h : execSetcomma i s = .next t) : BufferFrame s t := by
  unfold execSetcomma at h
  split at h <;> cases h
  · exact s.raise_frame _ _
  · exact s.setDigit_frame _ _ _

theorem execSetseg_frame {i g : Nat} {s t : State} (h : execSetseg i g s = .next t) : BufferFrame s t := by
  unfold execSetseg at h
  split at h
  · cases h; exact s.raise_frame _ _
  · split at h
    · cases h; exact s.raise_frame _ _
    · split at h <;> cases h
      · exact s.raise_frame _ _
      · exact (s.setTask_frame _).trans (State.settle_frame _)

theorem execSetstr_frame {text : List Byte} {s t : State} (h : execSetstr text s = .next t) : BufferFrame s t := by
  unfold execSetstr at h
  split at h
  · cases h; exact s.raise_frame _ _
  · split at h <;> cases h
    · exact s.raise_frame _ _
    · exact (s.startRender_frame _ _ _).trans (State.settle_frame _)

/-- REFRESH starts a pass or answers NotConstructed. -/
theorem execRefresh_cases {s t : State} (h : execRefresh s = .next t) :
    s.turn = .caller ∧
      ((s.life = .unconstructed ∧ t = s.raise .notConstructed 6) ∨
        ∃ cfg buf, s.life = .constructed cfg buf ∧ t = { s with fsm := .busy 0 .digOn }) := by
  unfold execRefresh at h
  split at h <;> cases h
  · exact ⟨‹_›, .inl ⟨‹_›, rfl⟩⟩
  · exact ⟨‹_›, .inr ⟨_, _, ‹_›, rfl⟩⟩

/-- CONFIG constructs the block or answers an error. -/
theorem execConfig_cases {pol : BitVec 2} {on dly : Int} {digs segs : List Nat} {s t : State}
    (h : execConfig pol on dly digs segs s = .next t) :
    s.turn = .caller ∧
      ((∃ e v, t = s.raise e v) ∨
        (s.life = .unconstructed ∧ configCheck s.config.maxDigits pol on dly digs segs = none ∧
          (∀ l ∈ digs ++ segs, l < s.config.lineCount ∧ l ∉ s.config.heldElsewhere) ∧
          t = (s.construct (configOf pol on dly digs segs)).answer 0)) := by
  unfold execConfig at h
  split at h
  · cases h
  · cases h; exact ⟨‹_›, .inl ⟨_, _, rfl⟩⟩
  · refine ⟨‹_›, ?_⟩
    split at h
    · cases h; exact .inl ⟨_, _, rfl⟩
    · split at h
      · cases h
      · split at h
        · cases h
        · rename_i hcheck hcount hheld
          cases h
          refine .inr ⟨‹_›, hcheck, fun l hl => ⟨?_, ?_⟩, rfl⟩
          · simp only [List.any_eq_true, decide_eq_true_eq, not_exists, not_and, not_le] at hcount
            exact hcount l hl
          · simp only [List.any_eq_true, List.contains_iff_mem, not_exists, not_and] at hheld
            exact hheld l hl

/-- What a command that goes on can do: change at most the buffer, start a pass, or construct the block. -/
theorem exec_cases {i : Instr} {s t : State} (h : exec i s = .next t) :
    BufferFrame s t ∨
      (i = .refresh ∧ s.turn = .caller ∧ ∃ cfg buf, s.life = .constructed cfg buf ∧
        t = { s with fsm := .busy 0 .digOn }) ∨
      ∃ pol on dly digs segs, i = .config pol on dly digs segs ∧ s.turn = .caller ∧ s.life = .unconstructed ∧
        configCheck s.config.maxDigits pol on dly digs segs = none ∧
        (∀ l ∈ digs ++ segs, l < s.config.lineCount ∧ l ∉ s.config.heldElsewhere) ∧
        t = (s.construct (configOf pol on dly digs segs)).answer 0 := by
  cases i with
  | lookup c => exact .inl (execLookup_frame h)
  | setdigit i c => exact .inl (execSetdigit_frame h)
  | setseg i g => exact .inl (execSetseg_frame h)
  | setcomma i => exact .inl (execSetcomma_frame h)
  | setstr text => exact .inl (execSetstr_frame h)
  | refresh =>
    obtain ⟨hc, ⟨-, rfl⟩ | hp⟩ := execRefresh_cases h
    · exact .inl (s.raise_frame _ _)
    · exact .inr (.inl ⟨rfl, hc, hp⟩)
  | config pol on dly digs segs =>
    obtain ⟨hc, ⟨e, v, rfl⟩ | hp⟩ := execConfig_cases h
    · exact .inl (s.raise_frame _ _)
    · exact .inr (.inr ⟨pol, on, dly, digs, segs, rfl, hc, hp⟩)

/-- What a step that goes on does, by what the moving agent has in progress. -/
theorem step_cases {s t : State} (h : step s = .next t) :
    (∃ d p, s.beginTurn.pass = .busy d p ∧ runPhase d p s.beginTurn = .next t) ∨
    (s.beginTurn.pass = .idle ∧ s.beginTurn.task ≠ .none ∧ t = resumeTask s.beginTurn) ∨
    (s.beginTurn.pass = .idle ∧ s.beginTurn.task = .none ∧
      ((decode s.beginTurn.pending = .incomplete ∧ t = s.beginTurn) ∨
        (∃ op rest, decode s.beginTurn.pending = .illegal op rest ∧
          t = (s.beginTurn.setPending rest).raise .illegalCommand (op.setWidth 16)) ∨
        ∃ i rest, decode s.beginTurn.pending = .command i rest ∧
          exec i (s.beginTurn.setPending rest) = .next t)) := by
  unfold step at h
  simp only at h
  split at h
  · exact .inl ⟨_, _, ‹_›, h⟩
  · refine .inr (.inr ⟨‹_›, ‹_›, ?_⟩)
    split at h
    · cases h; exact .inl ⟨‹_›, rfl⟩
    · cases h; exact .inr (.inl ⟨_, _, ‹_›, rfl⟩)
    · exact .inr (.inr ⟨_, _, ‹_›, h⟩)
  · cases h
    rename_i hne
    exact .inr (.inl ⟨‹_›, hne, rfl⟩)

end Sys2Proof.Machine
end

