-- ==== Sys2Proof/Machine/Assembler.lean ====
section
/-! DEFINITION. The assembly notation of the spec (R155) and its pseudo-commands (R156): one line of text to one command.
The machine does not use it (log 14). -/

namespace Sys2Proof.Machine

/-- SETDP i, which stands for SETSEG i, P (R156). -/
def setdpCommand (i : Nat) : Instr := .setseg i 7

/-- BLANK i, which stands for SETDIGIT i, ' ' (R156). -/
def blankCommand (i : Nat) : Instr := .setdigit i 0x20

/-- Blanks between the parts of a line mean nothing. -/
def skipBlanks : List Char → List Char
  | [] => []
  | c :: cs => if c = ' ' then skipBlanks cs else c :: cs

/-- The digits in the order of their values; the first ten are the decimal ones. -/
def digitChars : List Char := "0123456789ABCDEF".toList

/-- The value of a digit: its place among the digits. A hexadecimal letter may be of either case (DESIGN CHOICE: R155 does
not say, log 14). -/
def digitValue (c : Char) : Option Nat := digitChars.findIdx? (c.toUpper == ·)

/-- Whether a character is a digit of the base. -/
def isDigitOf (base : Nat) (c : Char) : Bool := (digitValue c).any (fun d => decide (d < base))

/-- Read as many digits of the base as there are. -/
def readDigits (base acc : Nat) : List Char → Nat × List Char
  | [] => (acc, [])
  | c :: cs => if isDigitOf base c then readDigits base (base * acc + (digitValue c).getD 0) cs else (acc, c :: cs)

/-- A number: decimal, or hexadecimal after `0x` (R155). -/
def readNumber : List Char → Option (Nat × List Char)
  | [] => none
  | c :: cs =>
    match c, cs with
    | '0', 'x' :: h :: rest => if isDigitOf 16 h then some (readDigits 16 0 (h :: rest)) else none
    | _, _ => if isDigitOf 10 c then some (readDigits 10 0 (c :: cs)) else none

/-- The code of a character of a text or of a quoted operand (R111, R155). A character outside ASCII has none: R111 lets no
code from 0x80 up name a character and does not say what such a character in a line stands for (DESIGN CHOICE, log 14). -/
def charCode (c : Char) : Option Byte := if c.toNat < 128 then some (BitVec.ofNat 8 c.toNat) else none

/-- A character operand: a character in single quotes, or a number (R155). -/
def readCharOperand : List Char → Option (Byte × List Char)
  | '\'' :: c :: '\'' :: rest => (charCode c).map (fun b => (b, rest))
  | cs => (readNumber cs).bind (fun x => if x.1 < 256 then some (BitVec.ofNat 8 x.1, x.2) else none)

/-- The number a segment name stands for (R155). -/
def segmentNumber (c : Char) : Option Nat := ['A', 'B', 'C', 'D', 'E', 'F', 'G', 'P'].findIdx? (· == c)

/-- A segment operand: a name or a number (R155). -/
def readSegment : List Char → Option (Nat × List Char)
  | [] => none
  | c :: cs =>
    match segmentNumber c with
    | some g => some (g, cs)
    | none => readNumber (c :: cs)

/-- A polarity operand: CC, CA or a number 0 to 3 (R155). -/
def readPolarity : List Char → Option (BitVec 2 × List Char)
  | 'C' :: 'C' :: rest => some (0, rest)
  | 'C' :: 'A' :: rest => some (1, rest)
  | cs => (readNumber cs).bind (fun x => if x.1 < 4 then some (BitVec.ofNat 2 x.1, x.2) else none)

/-- A comma between two operands. -/
def readComma (cs : List Char) : Option (List Char) :=
  match skipBlanks cs with
  | ',' :: rest => some (skipBlanks rest)
  | _ => none

/-- The numbers of a list up to its closing bracket; at most `fuel` of them. -/
def readItems : Nat → List Char → Option (List Nat × List Char)
  | 0, _ => none
  | fuel + 1, cs => do
    let (x, rest) ← readNumber cs
    match skipBlanks rest with
    | ']' :: rest => some ([x], rest)
    | ',' :: rest => do
      let (xs, rest) ← readItems fuel (skipBlanks rest)
      some (x :: xs, rest)
    | _ => none

/-- A list of line identifiers in brackets (R155). -/
def readList : List Char → Option (List Nat × List Char)
  | '[' :: cs =>
    match skipBlanks cs with
    | ']' :: rest => some ([], rest)
    | rest => readItems rest.length rest
  | _ => none

/-- The codes of a text up to the double quote that closes it; there are no escapes (R155). -/
def readTextBody : List Char → Option (List Byte × List Char)
  | [] => none
  | c :: cs =>
    if c.toNat = 34 then some ([], cs)
    else do
      let b ← charCode c
      let (bs, rest) ← readTextBody cs
      some (b :: bs, rest)

/-- A text in double quotes (R155). -/
def readText : List Char → Option (List Byte × List Char)
  | [] => none
  | c :: cs => if c.toNat = 34 then readTextBody cs else none

/-- The operands of a mnemonic, and what stands after them (R155, R156). -/
def readOperands (mnemonic : List Char) (cs : List Char) : Option (Instr × List Char) :=
  if mnemonic = ['L', 'O', 'O', 'K', 'U', 'P'] then do
    let (c, cs) ← readCharOperand cs
    some (.lookup c, cs)
  else if mnemonic = ['S', 'E', 'T', 'D', 'I', 'G', 'I', 'T'] then do
    let (i, cs) ← readNumber cs
    let (c, cs) ← readCharOperand (← readComma cs)
    some (.setdigit i c, cs)
  else if mnemonic = ['S', 'E', 'T', 'S', 'E', 'G'] then do
    let (i, cs) ← readNumber cs
    let (g, cs) ← readSegment (← readComma cs)
    some (.setseg i g, cs)
  else if mnemonic = ['S', 'E', 'T', 'C', 'O', 'M', 'M', 'A'] then do
    let (i, cs) ← readNumber cs
    some (.setcomma i, cs)
  else if mnemonic = ['S', 'E', 'T', 'S', 'T', 'R'] then do
    let (t, cs) ← readText cs
    some (.setstr t, cs)
  else if mnemonic = ['R', 'E', 'F', 'R', 'E', 'S', 'H'] then some (.refresh, cs)
  else if mnemonic = ['C', 'O', 'N', 'F', 'I', 'G'] then do
    let (pol, cs) ← readPolarity cs
    let (on, cs) ← readNumber (← readComma cs)
    let (dly, cs) ← readNumber (← readComma cs)
    let (digs, cs) ← readList (← readComma cs)
    let (segs, cs) ← readList (← readComma cs)
    some (.config pol on dly digs segs, cs)
  else if mnemonic = ['S', 'E', 'T', 'D', 'P'] then do
    let (i, cs) ← readNumber cs
    some (setdpCommand i, cs)
  else if mnemonic = ['B', 'L', 'A', 'N', 'K'] then do
    let (i, cs) ← readNumber cs
    some (blankCommand i, cs)
  else none

/-- One line of assembly (R155): a command whose operands the command port can carry, and nothing after it. -/
def assemble (line : List Char) : Option Instr := do
  let body := skipBlanks line
  let (i, rest) ← readOperands (body.takeWhile Char.isUpper) (skipBlanks (body.dropWhile Char.isUpper))
  if skipBlanks rest = [] ∧ i.wellFormed = true then some i else none

end Sys2Proof.Machine
end

