-- ==== Sys2Proof/Tests/Slice0.lean ====
section
/-! SUPPORT. The model's own tests: the spec's vectors (95_test_vectors.md), the encodings written out, the smoke test of
WellFormed, and a witness for the hypotheses of each statement. -/

namespace Sys2Proof.Tests
open Sys2Proof Sys2Proof.Machine

/-! ### Small states -/

/-- The standard configuration of 95_test_vectors.md. -/
def stdCfg : Cfg :=
  { dig := [10, 11, 12, 13], seg := [0, 1, 2, 3, 4, 5, 6, 7], pol := .commonCathode, on := 1000, dly := 100 }

/-- A block with the standard configuration and a given buffer, its lines quiet. -/
def std (buf : List Byte) : State :=
  { State.reset with
    life := .constructed stdCfg buf
    claimed := [0, 1, 2, 3, 4, 5, 6, 7, 10, 11, 12, 13]
    lvl := [(0, .low), (1, .low), (2, .low), (3, .low), (4, .low), (5, .low), (6, .low), (7, .low), (10, .high),
      (11, .high), (12, .high), (13, .high)] }

/-- The same block with a writer agent. -/
def shared (buf : List Byte) : State := { std buf with config := { Config.standard with asyncWriter := true } }

/-- The next state, if there is one. -/
def nextOf : Host.Outcome State Fault Refusal → Option State
  | .next s => some s
  | .fault _ => none
  | .refused _ => none

/-- The buffer and the last event after a command. -/
def result (i : Instr) (s : State) : Option (List Byte × Option Event) :=
  (nextOf (exec i s)).map (fun t => (t.buf, t.trace.getLast?))

/-- A response to the caller. -/
def said (e : Status) (data : Byte) (value : Value) : Option Event :=
  some (.response .caller { status := e, data := data, value := value })

/-! ### Encodings, written out from R132 and R134 to R140 -/

theorem test_decode_lookup : decode [0b0001_000000000000_00000000_01000001] = .command (.lookup 0x41) [] := by decide
theorem test_decode_setdigit :
    decode [0b0010_000000000010_00000000_00110111] = .command (.setdigit 2 0x37) [] := by decide
theorem test_decode_setseg : decode [0b0011_111111111111_00000111_00000000] = .command (.setseg 4095 7) [] := by decide
theorem test_decode_setcomma : decode [0b0100_000000000001_00000000_00000000] = .command (.setcomma 1) [] := by decide
theorem test_decode_setstr :
    decode [0b0101_000000000000_0000000000000101, 0x34312E33, 0x00000031] =
      .command (.setstr [0x33, 0x2E, 0x31, 0x34, 0x31]) [] := by decide
theorem test_decode_refresh : decode [0b0110_000000000000_00000000_00000000, 7] = .command .refresh [7] := by decide
theorem test_decode_config :
    decode [0b0111_000000000001_00001000_000000_01, 0xFFFFFFFF, 0x64, 20, 0, 1, 2, 3, 4, 5, 6, 7] =
      .command (.config 1 (-1) 100 [20] [0, 1, 2, 3, 4, 5, 6, 7]) [] := by decide
theorem test_decode_padding : decode [0x50000001, 0x00003131] = .illegal 5 [] := by decide
theorem test_encode_config :
    encode (.config 1 (-1) 100 [20] [0, 1, 2, 3, 4, 5, 6, 7]) =
      [0x70010801, 0xFFFFFFFF, 0x64, 20, 0, 1, 2, 3, 4, 5, 6, 7] := by decide
theorem test_table_word : decodeTableWord 32 0x50000005 = some (.setstr [0, 0, 0, 0, 0]) := by decide
theorem test_response_word :
    (Response.mk .unsupportedCharacter 0 0x2C).word = 0x002C0003 ∧ (Response.mk .ok 0x77 0).word = 0x00007700 := by
  decide
theorem test_assemble_config :
    assemble "CONFIG CA, 250, 0x32, [8, 9], [0,1]".toList = some (.config 1 250 50 [8, 9] [0, 1]) := by decide
theorem test_assemble_setdp : assemble "SETDP 1".toList = some (.setseg 1 7) := by decide
/-- `*` is 0x2A (R111). -/
theorem test_assemble_char :
    assemble "LOOKUP 0x2A".toList = some (.lookup 0x2A) ∧ assemble "LOOKUP '*'".toList = some (.lookup 0x2A) := by decide

/-! ### WellFormed refuses an ill-formed term of each check -/

theorem test_illformed_setdigit : (Instr.setdigit 4096 0).wellFormed = false := by decide
theorem test_illformed_setseg : (Instr.setseg 4096 0).wellFormed = false ∧ (Instr.setseg 0 256).wellFormed = false := by
  decide
theorem test_illformed_setcomma : (Instr.setcomma 4096).wellFormed = false := by decide
theorem test_illformed_setstr (t : List Byte) (h : t.length = 65536) : (Instr.setstr t).wellFormed = false := by
  simp [Instr.wellFormed, fitsLen, h]
theorem test_illformed_config_durations :
    (Instr.config 0 (2 ^ 31) 0 [] []).wellFormed = false ∧ (Instr.config 0 0 (-(2 ^ 31) - 1) [] []).wellFormed = false := by
  decide
theorem test_illformed_config_counts (digs segs : List Nat) (hd : digs.length = 4096) (hs : segs.length = 256) :
    (Instr.config 0 0 0 digs []).wellFormed = false ∧ (Instr.config 0 0 0 [] segs).wellFormed = false := by
  simp [Instr.wellFormed, fitsIdx, fitsB, hd, hs]
theorem test_illformed_config_lines :
    (Instr.config 0 0 0 [2 ^ 32] []).wellFormed = false ∧ (Instr.config 0 0 0 [] [2 ^ 32]).wellFormed = false := by
  decide

/-! ### The commands, from 95_test_vectors.md -/

/-- LV1. -/
theorem test_lookup_two : result (.lookup 0x32) State.reset = some ([], said .ok 0x5B 0) := by decide
/-- LV4. -/
theorem test_lookup_comma : result (.lookup 0x2C) State.reset = some ([], said .unsupportedCharacter 0 0x2C) := by decide
/-- DV1. -/
theorem test_setdigit_replaces :
    result (.setdigit 2 0x37) (std [0, 0, 0x80, 0]) = some ([0, 0, 0x07, 0], said .ok 0 0) := by decide
/-- DV6. -/
theorem test_setdigit_index_first :
    result (.setdigit 4 0x2C) (std [0, 0, 0, 0]) = some ([0, 0, 0, 0], said .rangeError 0 4) := by decide
/-- SV1. -/
theorem test_setseg_ors :
    result (.setseg 0 7) (std [0x4F, 0, 0, 0]) = some ([0xCF, 0, 0, 0], said .ok 0 0) := by decide
/-- AV2: the write of SETSEG stores the value it read, and the writer's 0x7F is lost. -/
theorem test_setseg_lost_update :
    (resumeTask { shared [0x7F, 0, 0, 0] with callerTask := .segWrite 0 7 0x06 }).buf = [0x86, 0, 0, 0] := by decide
/-- KV1. -/
theorem test_setcomma_erases :
    result (.setcomma 1) (std [0, 0x06, 0, 0]) = some ([0, 0x80, 0, 0], said .ok 0 0) := by decide
/-- TV16. -/
theorem test_setstr_mixed_separators :
    result (.setstr [0x31, 0x2C, 0x2E, 0x2C, 0x32]) (std [0, 0, 0, 0]) =
      some ([0x86, 0x80, 0x80, 0x5B], said .ok 0 0) := by decide
/-- TV8. -/
theorem test_setstr_partial :
    result (.setstr [0x41, 0x42, 0x3F, 0x44]) (std [0, 0, 0, 0]) =
      some ([0x77, 0x7C, 0, 0], said .unsupportedCharacter 0 0x3F) := by decide
/-- P1: SEG_ON of digit 0 showing 0xCF. -/
theorem test_refresh_seg_on :
    (nextOf (runPhase 0 .segOn (std [0xCF, 0, 0, 0]))).map (fun t => (t.trace, t.fsm)) =
      some ([.setLines [0, 1, 2, 3, 6, 7]], .busy 0 .holdOn) := by decide
/-- RV5. -/
theorem test_refresh_not_constructed : result .refresh State.reset = some ([], said .notConstructed 0 6) := by decide
/-- W14, last paragraph: the line levels after a COMMON_ANODE CONFIG. -/
theorem test_config_anode_levels :
    (nextOf (exec (.config 1 0 0 [8] [0, 1, 2, 3, 4, 5, 6, 7]) State.reset)).map (fun t => (t.lvl, t.buf)) =
      some ([(0, .high), (1, .high), (2, .high), (3, .high), (4, .high), (5, .high), (6, .high), (7, .high), (8, .low)],
        [0]) := by decide
/-- W13: POL = 2 fails check 5. -/
theorem test_config_polarity :
    result (.config 2 0 0 [1] [0, 1, 2, 3, 4, 5, 6, 7]) State.reset = some ([], said .configurationError 0 5) := by decide
/-- A step takes the command's words off the port and runs it. -/
theorem test_step_lookup :
    (nextOf (step (State.reset.withFetchWord 32 0x10000041))).map (fun t => (t.callerPort, t.trace.getLast?)) =
      some ([], said .ok 0x77 0) := by decide
/-- U10: the writer may not issue REFRESH. -/
theorem test_writer_refresh_refused :
    exec .refresh { shared [0, 0, 0, 0] with turn := .writer } = .refused .writerCommand := by rfl

/-! ### Witnesses: concrete states and operands that meet a statement's hypotheses -/

theorem witness_OneWordCommandsDecode : (4095 < 4096 ∧ 255 < 256) ∧ (0 < 4096 ∧ 0 < 256) := by decide
theorem witness_DecodeEncodeAgree :
    (Instr.config 3 (-(2 ^ 31)) (2 ^ 31 - 1) [2 ^ 32 - 1] [0]).wellFormed = true ∧
    (Instr.setseg 4095 255).wellFormed = true ∧ (Instr.setdigit 4095 0xFF).wellFormed = true ∧
    (Instr.setcomma 4095).wellFormed = true ∧ (Instr.setstr [1, 2, 3, 4, 5]).wellFormed = true := by decide
theorem witness_EncodeDecodeAgree : decode [0x50000001, 0x31, 9] = .command (.setstr [0x31]) [9] := by decide
theorem witness_IllegalExactlyWhenReserved :
    payloadLength 0x50000001 ≤ [0x00003131#32].length ∧ decode [0x50000001, 0x00003131] = .illegal 5 [] ∧
    payloadLength 0x70000004 ≤ [0#32, 0].length ∧ decode [0x70000004, 0, 0] = .illegal 7 [] ∧
    decode [0x00000000] = .illegal 0 [] ∧ decode [0x80000000] = .illegal 8 [] ∧ decode [0x10000141] = .illegal 1 [] ∧
    decode [0x20000131] = .illegal 2 [] ∧ decode [0x30000701] = .illegal 3 [] ∧ decode [0x40010001] = .illegal 4 [] ∧
    decode [0x61000000] = .illegal 6 [] := by decide
theorem witness_CommandLengthFromFirstWord :
    decode [0x50000001] = .incomplete ∧ decode [0x50000001, 0x31] = .command (.setstr [0x31]) [] ∧
    decode [0x70000000, 0] = .incomplete ∧ decode [0x70000000, 0, 0] = .command (.config 0 0 0 [] []) [] := by decide
theorem witness_TextPackedLowByteFirst : 3 < 4 * (packText [0x31]).length ∧ 0 < 4 * (packText [0x31]).length := by decide
theorem witness_LiteralBitsAreSegments : (0 < 8 ∧ 7 < 8) ∧ maskOfLiteral 0b00000001 = 0x80 := by decide
theorem witness_StepRunsDecodedCommand :
    let s := State.reset.offer .caller [0x10000041]
    let u : State := { shared [6, 0, 0, 0] with callerTask := .segWrite 0 7 6 }
    s.beginTurn.pass = .idle ∧ s.beginTurn.task = .none ∧
      decode s.beginTurn.pending = .command (.lookup 0x41) [] ∧
      u.beginTurn.pass = .idle ∧ u.beginTurn.task ≠ .none := by decide
theorem witness_IllegalCommandAnswers :
    let s := State.reset.offer .caller [0x90000000]
    s.beginTurn.pass = .idle ∧ s.beginTurn.task = .none ∧ decode s.beginTurn.pending = .illegal 9 [] ∧
      s.beginTurn.pending = [0x90000000] ∧ 8 ≤ (wordOp 0x90000000).toNat ∧ wordOp 0x00000001 = 0 := by decide
theorem witness_StepWaitsForCommand :
    State.reset.beginTurn.pass = .idle ∧ State.reset.beginTurn.task = .none ∧
      decode State.reset.beginTurn.pending = .incomplete := by decide
/-- A pass in progress: DIG_ON of digit 3 is next. -/
def passing : State := { std [0x7F, 0, 0, 0x06] with fsm := .busy 3 .digOn }
theorem witness_PassBlocksCommandPort :
    passing.fsm = .busy 3 .digOn ∧ passing.beginTurn.turn = .caller ∧ (nextOf (step passing)).isSome = true := by decide
theorem witness_NoWriterNoWriterStep :
    State.reset.config.asyncWriter = false ∧ (nextOf (step State.reset)).isSome = true := by decide
theorem witness_LookupAnswers : glyph 0x41 = some 0x77 ∧ glyph 0x2C = none := by decide
theorem witness_SetdigitReplacesEntry :
    (std [0, 0, 0, 0]).life = .constructed stdCfg [0, 0, 0, 0] ∧ stdCfg.digits ≤ 4 ∧ 3 < stdCfg.digits ∧
      glyph 0x2C = none ∧ glyph 0x37 = some 0x07 := by decide
theorem witness_SetsegOrsOneBit :
    (std [0, 0, 0, 0]).life = .constructed stdCfg [0, 0, 0, 0] ∧ (std [0, 0, 0, 0]).config.asyncWriter = false ∧
      3 < stdCfg.digits ∧ 7 < 8 := by decide
theorem witness_SetsegRangeErrors :
    (std [0, 0, 0, 0]).life = .constructed stdCfg [0, 0, 0, 0] ∧ stdCfg.digits ≤ 4 ∧ 3 < stdCfg.digits ∧ 8 ≤ 8 := by
  decide
theorem witness_SetsegReadsThenWrites :
    (shared [6, 0, 0, 0]).life = .constructed stdCfg [6, 0, 0, 0] ∧ (shared [6, 0, 0, 0]).config.asyncWriter = true ∧
      0 < stdCfg.digits ∧
      ({ shared [6, 0, 0, 0] with callerTask := .segWrite 0 7 6 } : State).task = .segWrite 0 7 6 := by decide
theorem witness_SetcommaReplacesEntry :
    (std [0, 0, 0, 0]).life = .constructed stdCfg [0, 0, 0, 0] ∧ stdCfg.digits ≤ 4 ∧ 3 < stdCfg.digits := by decide
theorem witness_NotConstructedBeforeConfig :
    State.reset.life = .unconstructed ∧ State.reset.turn = .caller ∧
      (nextOf (exec (.lookup 0x41) State.reset)).isSome = true ∧
      (nextOf (exec (.config 0 0 0 [] []) State.reset)).isSome = true := by decide
/-- A text of four glyphs and two separators, whose inserted space makes a fifth glyph. -/
def sepLast : List Byte := [0x31, 0x32, 0x2C, 0x2C, 0x33, 0x34]
theorem witness_SetstrCapacityErrors :
    (std [0, 0, 0, 0]).life = .constructed stdCfg [0, 0, 0, 0] ∧
    2 * stdCfg.digits < (List.replicate 9 (0x31 : Byte)).length ∧
    ((List.replicate 5 (0x2E : Byte)).length ≤ 2 * stdCfg.digits ∧ stdCfg.digits < sepCount (List.replicate 5 0x2E)) ∧
    ([0x31, 0x32, 0x33, 0x34, 0x35].length ≤ 2 * stdCfg.digits ∧ sepCount [0x31, 0x32, 0x33, 0x34, 0x35] ≤ stdCfg.digits ∧
      stdCfg.digits < [0x31, 0x32, 0x33, 0x34, 0x35].length - sepCount [0x31, 0x32, 0x33, 0x34, 0x35]) ∧
    (sepLast.length ≤ 2 * stdCfg.digits ∧ sepCount sepLast ≤ stdCfg.digits ∧
      sepLast.length - sepCount sepLast ≤ stdCfg.digits ∧
      stdCfg.digits < (spacedText sepLast).length - sepCount (spacedText sepLast)) := by decide
theorem witness_SetstrRendersText :
    let t : List Byte := [0x38, 0x2E, 0x38, 0x2E, 0x38, 0x2E, 0x38, 0x2E]
    (std [1, 2, 3, 4]).life = .constructed stdCfg [1, 2, 3, 4] ∧ (std [1, 2, 3, 4]).config.asyncWriter = false ∧
      [1, 2, 3, 4].length = stdCfg.digits ∧ t.length ≤ 2 * stdCfg.digits ∧ sepCount t ≤ stdCfg.digits ∧ t.length - sepCount t ≤ stdCfg.digits ∧
      (textChars t).length ≤ stdCfg.digits ∧ ∀ c ∈ textChars t, glyph c ≠ none := by decide
theorem witness_SetstrStopsAtUnsupported :
    let t : List Byte := [0x41, 0x42, 0x3F, 0x44]
    (std [1, 2, 3, 4]).life = .constructed stdCfg [1, 2, 3, 4] ∧ (std [1, 2, 3, 4]).config.asyncWriter = false ∧
    [1, 2, 3, 4].length = stdCfg.digits ∧ textChars t = [0x41, 0x42] ++ 0x3F :: [0x44] ∧ (∀ x ∈ [0x41, 0x42], glyph x ≠ none) ∧ glyph 0x3F = none ∧
      t.length ≤ 2 * stdCfg.digits ∧ sepCount t ≤ stdCfg.digits ∧ t.length - sepCount t ≤ stdCfg.digits ∧
      (textChars t).length ≤ stdCfg.digits := by decide
theorem witness_EmptyTextWritesNothing :
    (std [1, 2, 3, 4]).life = .constructed stdCfg [1, 2, 3, 4] ∧ (std [1, 2, 3, 4]).task = .none := by decide
theorem witness_SetstrAtomicSteps :
    (shared [0, 0, 0, 0]).life = .constructed stdCfg [0, 0, 0, 0] ∧
      (shared [0, 0, 0, 0]).config.asyncWriter = true ∧ textCheck stdCfg.digits [0x31, 0x2E] = none ∧
      textChars [0x31, 0x2E] = [0x31] ∧ textDots [0x31, 0x2E] = [0] ∧
      ({ shared [0, 0, 0, 0] with callerTask := .render 0 [0x31] [0] } : State).task = .render 0 [0x31] [0] ∧
      ({ shared [0, 0, 0, 0] with callerTask := .render 0 [0x31, 0x32] [] } : State).task = .render 0 [0x31, 0x32] [] ∧
      ({ shared [0, 0, 0, 0] with callerTask := .dotRead [0] } : State).task = .dotRead [0] ∧
      ({ shared [0, 0, 0, 0] with callerTask := .dotWrite 0 6 [1] } : State).task = .dotWrite 0 6 [1] ∧
      glyph 0x31 = some 0x06 ∧ glyph 0x3F = none := by decide
theorem witness_AtomicStepsAddUp :
    (std [0, 0, 0, 0]).task = .none ∧ (nextOf (exec (.setseg 0 7) (shared [0, 0, 0, 0]))).isSome = true := by decide
theorem witness_NoWriterNothingPending :
    let s := (std [0, 0, 0, 0]).offer .caller [0x30000700]
    s.config.asyncWriter = false ∧ s.callerTask = .none ∧ (nextOf (step s)).isSome = true := by decide
theorem witness_ConfigConstructs :
    State.reset.turn = .caller ∧ State.reset.life = .unconstructed ∧ [0, 1, 2, 3, 4, 5, 6, 7].length = 8 ∧
      1 ≤ [8].length ∧ [8].length ≤ State.reset.config.maxDigits ∧
      ∀ l ∈ [8] ++ [0, 1, 2, 3, 4, 5, 6, 7],
        l < State.reset.config.lineCount ∧ l ∉ State.reset.config.heldElsewhere := by decide
theorem witness_ConfigLeavesLinesQuiet : stdCfg.DistinctLines ∧ 8 ∉ stdCfg.lines := by decide
/-- A block whose MAX_DIGITS is 1. -/
def narrow : State := { State.reset with config := { Config.standard with maxDigits := 1 } }
/-- One state and five CONFIGs, each the first to fail its check; MAX_DIGITS is 1. -/
theorem witness_ConfigChecksInOrder :
    narrow.turn = .caller ∧ narrow.life = .unconstructed ∧
    result (.config 2 (-1) (-1) [] [0, 1, 2, 3, 4, 5, 6]) narrow = some ([], said .configurationError 0 1) ∧
    result (.config 2 (-1) (-1) [] [0, 1, 2, 3, 4, 5, 6, 7]) narrow = some ([], said .configurationError 0 2) ∧
    result (.config 2 (-1) (-1) [8, 9] [0, 1, 2, 3, 4, 5, 6, 7]) narrow = some ([], said .configurationError 0 2) ∧
    result (.config 2 (-1) (-1) [8] [0, 1, 2, 3, 4, 5, 6, 7]) narrow = some ([], said .configurationError 0 3) ∧
    result (.config 2 0 (-1) [8] [0, 1, 2, 3, 4, 5, 6, 7]) narrow = some ([], said .configurationError 0 4) ∧
    result (.config 2 0 0 [8] [0, 1, 2, 3, 4, 5, 6, 7]) narrow = some ([], said .configurationError 0 5) ∧
    result (.config 3 0 0 [8] [0, 1, 2, 3, 4, 5, 6, 7]) narrow = some ([], said .configurationError 0 5) := by
  decide
theorem witness_SecondConfigRejected :
    (std [0, 0, 0, 0]).turn = .caller ∧ (std [0, 0, 0, 0]).life = .constructed stdCfg [0, 0, 0, 0] := by decide
theorem witness_RefusalsExactly :
    (({ State.reset with turn := .writer } : State).turn = .writer ∧ bufferCommand .refresh = false) ∧
    configCheck State.reset.config.maxDigits 0 0 0 [2 ^ 32] [0, 1, 2, 3, 4, 5, 6, 7] = none ∧
    State.reset.config.lineCount ≤ 2 ^ 32 := by decide
theorem witness_PhasesMakeTheirCalls :
    (std [0, 0, 0, 0]).life = .constructed stdCfg [0, 0, 0, 0] ∧ stdCfg.dig[3]? = some 13 ∧ 3 + 1 = stdCfg.digits ∧
      stdCfg.dig[2]? = some 12 ∧ 2 + 1 < stdCfg.digits := by decide
theorem witness_RefreshRunsWholePass :
    (std [0, 0, 0, 0]).life = .constructed stdCfg [0, 0, 0, 0] ∧ 1 ≤ stdCfg.digits ∧
      (std [0, 0, 0, 0]).turn = .caller ∧ (std [0, 0, 0, 0]).sched = [] := by decide
theorem witness_PolarityInvertsPass : Memory.read [(0, .low)] 0 = (Memory.read [(0, .high)] 0).opposite := by decide
theorem witness_PassEndsQuiet : stdCfg.DistinctLines ∧ Quiet stdCfg (std [0, 0, 0, 0]).lvl := by decide

/-- The display rule holds of a quiet block at DIG_ON. -/
theorem passing_displayRule (fsm : Fsm) (hd : ∀ d, fsm.selects d = false) :
    ({ std [0x7F, 0, 0, 0x06] with fsm := fsm } : State).DisplayRule := by
  intro _
  have quiet : Quiet stdCfg (std [0x7F, 0, 0, 0x06]).lvl := by decide
  exact ⟨fun d l hl => by simpa [hd d] using quiet.1 l (List.mem_of_getElem? hl), 0, fun _ => rfl,
    fun g k hk => by simpa using quiet.2 k (List.mem_of_getElem? hk)⟩

theorem witness_AtMostOneDigitActive :
    passing.life = .constructed stdCfg [0x7F, 0, 0, 0x06] ∧ stdCfg.DistinctLines ∧ passing.DisplayRule :=
  ⟨by decide, by decide, passing_displayRule _ fun d => by simp [Fsm.selects]⟩
/-- A block in a pass whose digit 3 is selected. -/
def selected : State := { passing with fsm := .busy 3 .segOn, lvl := (passing.lvl).write 13 .low }
theorem selected_displayRule : selected.DisplayRule := by
  intro _
  refine ⟨fun d l hl => ?_, 0, fun _ => rfl, fun g k hk => ?_⟩
  · obtain ⟨hd, rfl⟩ := List.getElem?_eq_some_iff.mp hl
    have : d < 4 := hd
    interval_cases d <;> decide +revert
  · obtain ⟨hg, rfl⟩ := List.getElem?_eq_some_iff.mp hk
    have : g < 8 := hg
    interval_cases g <;> decide +revert
theorem witness_HoldShowsMaskOnOneDigit :
    selected.life = .constructed stdCfg [0x7F, 0, 0, 0x06] ∧ stdCfg.DistinctLines ∧ selected.DisplayRule ∧
      selected.fsm = .busy 3 .segOn ∧ (nextOf (runPhase 3 .segOn selected)).isSome = true :=
  ⟨by decide, by decide, selected_displayRule, by decide, by decide⟩
theorem witness_StepKeepsDisplayRule : selected.DisplayRule ∧ (nextOf (step selected)).isSome = true :=
  ⟨selected_displayRule, by decide⟩
theorem witness_BufferCommandsFrame :
    bufferCommand (.setseg 0 7) = true ∧ (nextOf (exec (.setseg 0 7) (std [0, 0, 0, 0]))).isSome = true ∧
      bufferCommand (.lookup 0x41) = true ∧ bufferCommand (.setdigit 0 0) = true ∧ bufferCommand (.setcomma 0) = true ∧
      bufferCommand (.setstr []) = true := by decide
theorem witness_OtherEntriesUnchanged :
    (nextOf (exec (.lookup 0x41) (std [0, 0, 0, 0]))).isSome = true ∧
    (nextOf (exec .refresh (std [0, 0, 0, 0]))).isSome = true ∧
    (nextOf (exec (.setdigit 3 0x31) (std [0, 0, 0, 0]))).isSome = true ∧
    (nextOf (exec (.setcomma 3) (std [0, 0, 0, 0]))).isSome = true ∧
    (nextOf (exec (.setseg 3 7) (std [0, 0, 0, 0]))).isSome = true ∧
    (nextOf (exec (.setstr [0x31]) (std [0, 0, 0, 0]))).isSome = true ∧ (textChars [0x31]).length ≤ 1 := by decide
theorem witness_PhasesFrame :
    (nextOf (runPhase 3 .digOn passing)).isSome = true ∧ 8 ∉ stdCfg.lines := by decide
theorem witness_ConfigFrame :
    (nextOf (exec (.config 1 0 0 [8] [0, 1, 2, 3, 4, 5, 6, 7]) State.reset)).isSome = true ∧
      9 ∉ [8] ++ [0, 1, 2, 3, 4, 5, 6, 7] := by decide

/-- One digit, constructed by CONFIG from power-up. -/
def oneDigit : State :=
  ((State.reset.construct (configOf 1 5 7 [8] [0, 1, 2, 3, 4, 5, 6, 7])).answer 0).offer .caller [0x60000000]
theorem oneDigit_inv : oneDigit.Inv where
  legalConfig := by decide
  levelsCanonical := by decide
  claimsCanonical := by decide
  levelsOfTrace := by decide
  claimsOfTrace := by decide
  lifecycle := by
    refine ⟨⟨by decide, by decide, by decide, by decide, by decide, by decide⟩, by decide, by decide, trivial, trivial,
      trivial, fun _ => rfl⟩
theorem witness_StepKeepsInvariant : oneDigit.Inv ∧ (nextOf (step oneDigit)).isSome = true :=
  ⟨oneDigit_inv, by decide⟩
theorem witness_NoStepFaults : oneDigit.Inv := oneDigit_inv
theorem witness_ConfigurationIsImmutable :
    passing.life = .constructed stdCfg [0x7F, 0, 0, 0x06] ∧ (nextOf (step passing)).isSome = true := by decide
theorem witness_ClaimsAndParametersStay : (nextOf (step passing)).isSome = true ∧ 10 ∈ passing.claimed := by decide
theorem witness_NoTornFrameWithoutWriter :
    passing.config.asyncWriter = false ∧ passing.fsm = .busy 3 .digOn ∧ (nextOf (step passing)).isSome = true := by decide
theorem witness_TraceIsNeverRead : (nextOf (step oneDigit)).isSome = true := by decide
theorem witness_OneResponsePerCommand :
    (std [0, 0, 0, 0]).config.asyncWriter = false ∧ (std [0, 0, 0, 0]).task = .none ∧
      Instr.setseg 0 7 ≠ .refresh ∧ (nextOf (exec (.setseg 0 7) (std [0, 0, 0, 0]))).isSome = true := by decide
/-- A pass before digit 1's SEG_ON, with SETDIGIT 1, '7' at the writer's port and the writer scheduled, as in AV1. -/
def torn : State :=
  { shared [0x06, 0x5B, 0, 0] with fsm := .busy 1 .segOn, sched := [.writer], writerPort := [0x20010037] }
/-- AV1: the writer's write falls before digit 1's SEG_ON, and the pass goes on. -/
theorem test_writer_during_pass :
    (nextOf (step torn)).map (fun t => (t.buf, t.fsm, t.turn, t.sched, t.writerPort)) =
      some ([0x06, 0x07, 0, 0], .busy 1 .segOn, .writer, [], []) := by decide
theorem witness_ScheduledAgentMoves :
    torn.config.asyncWriter = true ∧ torn.sched = [.writer] ∧ torn.writerTask = .none ∧
      decode torn.writerPort = .command (.setdigit 1 0x37) [] ∧
    ({ torn with writerTask := .segWrite 0 7 6 } : State).writerTask ≠ .none ∧
    ({ torn with sched := [.caller, .writer] } : State).sched.head? ≠ some .writer ∧ torn.fsm = .busy 1 .segOn ∧
    passing.config.asyncWriter = false ∧
    (let s : State := { shared [6, 0, 0, 0] with callerTask := .segWrite 0 7 6 }
     s.fsm = .idle ∧ s.callerTask ≠ .none ∧ s.sched.head? ≠ some .writer) ∧
    (let s := (shared [6, 0, 0, 0]).offer .caller [0x10000041]
     s.fsm = .idle ∧ s.callerTask = .none ∧ decode s.callerPort = .command (.lookup 0x41) [] ∧
      s.sched.head? ≠ some .writer) := by decide

end Sys2Proof.Tests
end

section
/-! Proofs: the state and its backend calls (spec/10_state.md). -/
namespace Sys2Proof.Machine

/-- Before any call every line is UNKNOWN (R43). -/
@[simp] theorem State.reset_lvl_read (l : Nat) : State.reset.lvl.read l = .unknown := rfl

/-- Settles O39: an emitted call acts on the levels by `Event.levels` and on the claims by `Event.claims`; the levels
of a driven set are `Memory.read_writeAll`, the claim of a configured line is `LineSet.mem_insert`. -/
theorem backendCallsChangeTheirLines : Obligations.BackendCallsChangeTheirLines := by
  unfold Obligations.BackendCallsChangeTheirLines
  refine ⟨State.reset_lvl_read, fun s S l k t => ⟨?setLevels, ?clearLevels, ?configureLevels, ?sleepLevels,
    ?configureClaims, ?setClaims, ?clearClaims, ?sleepClaims⟩⟩
  case setLevels => rw [State.emit_lvl, Event.levels_setLines, Memory.read_writeAll]
  case clearLevels => rw [State.emit_lvl, Event.levels_clearLines, Memory.read_writeAll]
  case configureLevels => rw [State.emit_lvl, Event.levels_configureOutput]
  case sleepLevels => rw [State.emit_lvl, Event.levels_sleepUs]
  case configureClaims => rw [State.emit_claimed, Event.claims_configureOutput, LineSet.mem_insert]
  case setClaims => rw [State.emit_claimed, Event.claims_setLines]
  case clearClaims => rw [State.emit_claimed, Event.claims_clearLines]
  case sleepClaims => rw [State.emit_claimed, Event.claims_sleepUs]

end Sys2Proof.Machine
end

section
/-! Proofs: the decoder's answers and one equation per one-word command (spec/30_encoding.md). -/
namespace Sys2Proof

/-! ### The length of a command (R141) -/

/-- R141 through the fields of the command word. -/
theorem payloadLength_eq (w : Word) :
    payloadLength w =
      if wordOp w = 5 then ((wordLen w).toNat + 3) / 4
      else if wordOp w = 7 then 2 + (wordIdx w).toNat + (wordB w).toNat else 0 := by
  have h := payloadLength_commandWord (wordOp w) (wordIdx w) (wordB w) (wordC w)
  rwa [commandWord_fields, ← wordLen_eq] at h

/-- Only SETSTR and CONFIG have a payload. -/
theorem payloadLength_eq_zero {w : Word} (h5 : wordOp w ≠ 5) (h7 : wordOp w ≠ 7) : payloadLength w = 0 := by
  rw [payloadLength_eq, if_neg h5, if_neg h7]

/-! ### What the decoder answers (R141, R143) -/

/-- The three answers of the decoder, by the words that are there and by what they make. -/
theorem decode_cases (w : Word) (ws : List Word) :
    (ws.length < payloadLength w ∧ decode (w :: ws) = .incomplete) ∨
    (payloadLength w ≤ ws.length ∧ ∃ i, decodeCommand w (ws.take (payloadLength w)) = some i ∧
      decode (w :: ws) = .command i (ws.drop (payloadLength w))) ∨
    (payloadLength w ≤ ws.length ∧ decodeCommand w (ws.take (payloadLength w)) = none ∧
      decode (w :: ws) = .illegal (wordOp w) (ws.drop (payloadLength w))) := by
  rcases Nat.lt_or_ge ws.length (payloadLength w) with hshort | hwhole
  · exact .inl ⟨hshort, by simp only [decode, if_pos hshort]⟩
  · refine .inr ?_
    simp only [decode, if_neg (Nat.not_lt.mpr hwhole)]
    cases decodeCommand w (ws.take (payloadLength w)) with
    | some i => exact .inl ⟨hwhole, i, rfl, rfl⟩
    | none => exact .inr ⟨hwhole, rfl, rfl⟩

theorem decode_incomplete_iff (w : Word) (ws : List Word) :
    decode (w :: ws) = .incomplete ↔ ws.length < payloadLength w := by
  obtain ⟨hlen, hd⟩ | ⟨hlen, i, -, hd⟩ | ⟨hlen, -, hd⟩ := decode_cases w ws
  · simp only [hd, hlen]
  · simp only [hd, reduceCtorEq, Nat.not_lt.mpr hlen]
  · simp only [hd, reduceCtorEq, Nat.not_lt.mpr hlen]

theorem decode_command_iff (w : Word) (ws rest : List Word) (i : Instr) :
    decode (w :: ws) = .command i rest ↔
      payloadLength w ≤ ws.length ∧ decodeCommand w (ws.take (payloadLength w)) = some i ∧
        rest = ws.drop (payloadLength w) := by
  obtain ⟨hlen, hd⟩ | ⟨hlen, j, hc, hd⟩ | ⟨hlen, hc, hd⟩ := decode_cases w ws
  · simp [hd, Nat.not_le.mpr hlen]
  · simp [hd, hc, hlen, eq_comm]
  · simp [hd, hc]

theorem decode_illegal_iff (w : Word) (ws rest : List Word) (op : BitVec 4) :
    decode (w :: ws) = .illegal op rest ↔
      payloadLength w ≤ ws.length ∧ decodeCommand w (ws.take (payloadLength w)) = none ∧
        op = wordOp w ∧ rest = ws.drop (payloadLength w) := by
  obtain ⟨hlen, hd⟩ | ⟨hlen, j, hc, hd⟩ | ⟨hlen, hc, hd⟩ := decode_cases w ws
  · simp [hd, Nat.not_le.mpr hlen]
  · simp [hd, hc]
  · simp [hd, hc, hlen, eq_comm]

/-- Settles O6: `payloadLength` is the statement's k, and the three answers of the decoder are told apart by it. -/
theorem commandLengthFromFirstWord : Obligations.CommandLengthFromFirstWord := by
  unfold Obligations.CommandLengthFromFirstWord
  intro w ws
  rw [← payloadLength_eq w]
  refine ⟨decode_incomplete_iff w ws, fun i rest h => ?_, fun op rest h => ?_⟩
  · obtain ⟨-, -, hrest⟩ := (decode_command_iff w ws rest i).mp h
    exact hrest
  · obtain ⟨-, -, -, hrest⟩ := (decode_illegal_iff w ws rest op).mp h
    exact hrest

/-! ### The fields that must be zero (R132, R143) -/

theorem extractLsb'_8_20_eq_zero_iff (w : Word) : w.extractLsb' 8 20 = 0 ↔ wordIdx w = 0 ∧ wordB w = 0 := by
  simp only [wordIdx, wordB, ← BitVec.toNat_inj, BitVec.extractLsb'_toNat, Nat.shiftRight_eq_div_pow,
    BitVec.ofNat_eq_ofNat, BitVec.toNat_ofNat]
  omega

theorem wordLen_eq_zero_iff (w : Word) : wordLen w = 0 ↔ wordB w = 0 ∧ wordC w = 0 := by
  simp only [← BitVec.toNat_inj, wordLen_eq, BitVec.ofNat_eq_ofNat, BitVec.toNat_ofNat]
  omega

theorem extractLsb'_0_28_eq_zero_iff (w : Word) :
    w.extractLsb' 0 28 = 0 ↔ wordIdx w = 0 ∧ wordB w = 0 ∧ wordC w = 0 := by
  simp only [wordIdx, wordB, wordC, ← BitVec.toNat_inj, BitVec.extractLsb'_toNat, Nat.shiftRight_eq_div_pow,
    BitVec.ofNat_eq_ofNat, BitVec.toNat_ofNat]
  omega

/-! ### One equation per one-word command (R132, R142) -/

section
variable {w : Word} (payload : List Word)

theorem decodeCommand_lookup (h : wordOp w = 1) :
    decodeCommand w payload = if wordIdx w = 0 ∧ wordB w = 0 then some (.lookup (wordC w)) else none := by
  simp only [decodeCommand, h, ← extractLsb'_8_20_eq_zero_iff]; rfl

theorem decodeCommand_setdigit (h : wordOp w = 2) :
    decodeCommand w payload = if wordB w = 0 then some (.setdigit (wordIdx w).toNat (wordC w)) else none := by
  simp only [decodeCommand, h]; rfl

theorem decodeCommand_setseg (h : wordOp w = 3) :
    decodeCommand w payload =
      if wordC w = 0 then some (.setseg (wordIdx w).toNat (wordB w).toNat) else none := by
  simp only [decodeCommand, h]; rfl

theorem decodeCommand_setcomma (h : wordOp w = 4) :
    decodeCommand w payload = if wordB w = 0 ∧ wordC w = 0 then some (.setcomma (wordIdx w).toNat) else none := by
  simp only [decodeCommand, h, ← wordLen_eq_zero_iff]; rfl

theorem decodeCommand_refresh (h : wordOp w = 6) :
    decodeCommand w payload = if wordIdx w = 0 ∧ wordB w = 0 ∧ wordC w = 0 then some .refresh else none := by
  simp only [decodeCommand, h, ← extractLsb'_0_28_eq_zero_iff]; rfl

/-- A reserved OP has no command, whatever its other fields (R142). -/
theorem decodeCommand_reserved (h : wordOp w = 0 ∨ 8 ≤ (wordOp w).toNat) : decodeCommand w payload = none := by
  unfold decodeCommand
  split
  case h_8 => rfl
  all_goals simp_all -- OP is one of 1 to 7, against h
end

/-! ### One-word commands on the port (R134, R135, R137, R142) -/

/-- A command word that asks for no payload is decoded alone, and the words after it are left. -/
theorem decode_oneWord {w : Word} {i : Instr} (rest : List Word) (h5 : wordOp w ≠ 5) (h7 : wordOp w ≠ 7)
    (h : decodeCommand w [] = some i) : decode (w :: rest) = .command i rest := by
  simp [decode_command_iff, payloadLength_eq_zero h5 h7, h]

section
variable (rest : List Word) (c : Byte) (i g : Nat)

theorem decode_lookup_word : decode (commandWord 1 0 0 c :: rest) = .command (.lookup c) rest :=
  decode_oneWord rest (by simp) (by simp) (by simp [decodeCommand_lookup])

theorem decode_setdigit_word (hi : i < 4096) :
    decode (commandWord 2 (BitVec.ofNat 12 i) 0 c :: rest) = .command (.setdigit i c) rest :=
  decode_oneWord rest (by simp) (by simp) (by simp [decodeCommand_setdigit, Nat.mod_eq_of_lt hi])

theorem decode_setseg_word (hi : i < 4096) (hg : g < 256) :
    decode (commandWord 3 (BitVec.ofNat 12 i) (BitVec.ofNat 8 g) 0 :: rest) = .command (.setseg i g) rest :=
  decode_oneWord rest (by simp) (by simp)
    (by simp [decodeCommand_setseg, Nat.mod_eq_of_lt hi, Nat.mod_eq_of_lt hg])

theorem decode_setcomma_word (hi : i < 4096) :
    decode (commandWord 4 (BitVec.ofNat 12 i) 0 0 :: rest) = .command (.setcomma i) rest :=
  decode_oneWord rest (by simp) (by simp) (by simp [decodeCommand_setcomma, Nat.mod_eq_of_lt hi])

theorem decode_refresh_word : decode (commandWord 6 0 0 0 :: rest) = .command .refresh rest :=
  decode_oneWord rest (by simp) (by simp) (by simp [decodeCommand_refresh])
end

/-- Settles O2: each word is a `commandWord`, with the number operands written at the width of the word. -/
theorem oneWordCommandsDecode : Obligations.OneWordCommandsDecode := by
  unfold Obligations.OneWordCommandsDecode
  intro rest c i g hi hg
  have hidx : (BitVec.ofNat 12 i).setWidth 32 = BitVec.ofNat 32 i := BitVec.setWidth_ofNat_of_le_of_lt (by decide) hi
  have hseg : (BitVec.ofNat 8 g).setWidth 32 = BitVec.ofNat 32 g := BitVec.setWidth_ofNat_of_le_of_lt (by decide) hg
  refine ⟨?lookup, ?setdigit, ?setseg, ?setcomma, decode_refresh_word rest⟩
  case lookup => simpa [commandWord] using decode_lookup_word rest c
  case setdigit => simpa [commandWord, hidx] using decode_setdigit_word rest c i hi
  case setseg => simpa [commandWord, hidx, hseg] using decode_setseg_word rest i g hi hg
  case setcomma => simpa [commandWord, hidx] using decode_setcomma_word rest i hi

/-- A reserved OP is an illegal command of one word, whatever words follow (R142). -/
theorem decode_reserved {w : Word} (ws : List Word) (h : wordOp w = 0 ∨ 8 ≤ (wordOp w).toNat) :
    decode (w :: ws) = .illegal (wordOp w) ws := by
  have h5 : wordOp w ≠ 5 := fun h5 => by simp [h5] at h
  have h7 : wordOp w ≠ 7 := fun h7 => by simp [h7] at h
  simp [decode_illegal_iff, payloadLength_eq_zero h5 h7, decodeCommand_reserved _ h]

end Sys2Proof
end

section
/-! Proofs: the glyph ROM and illegal commands (spec/30_encoding.md). -/
namespace Sys2Proof.Machine

/-! ### The glyph ROM (R110, R112) -/

/-- No code has two rows. -/
theorem glyphTable_codes_nodup : (glyphTable.map Prod.fst).Nodup := by decide

/-- A row of the ROM is found under its code. -/
theorem glyph_of_mem {c : Byte} {literal : BitVec 8} (h : (c, literal) ∈ glyphTable) :
    glyph c = some (maskOfLiteral literal) := by
  obtain ⟨before, after, htable⟩ := List.append_of_mem h
  have hfirst : c ∉ before.map Prod.fst := by
    have hnodup := glyphTable_codes_nodup
    rw [htable, List.map_append, List.map_cons, List.nodup_middle, List.nodup_cons, List.mem_append] at hnodup
    obtain ⟨honce, -⟩ := hnodup
    exact fun hc => honce (.inl hc)
  have hlookup : glyphTable.lookup c = some literal := by
    refine List.lookup_eq_some_iff.mpr ⟨before, after, htable, fun row hrow => bne_iff_ne.mpr ?_⟩
    rintro rfl
    exact hfirst (List.mem_map_of_mem hrow)
  rw [glyph, hlookup, Option.map_some]

/-- A code that no row of the ROM has is not supported (R112). -/
theorem glyph_eq_none {c : Byte} (h : c ∉ glyphTable.map Prod.fst) : glyph c = none := by
  rw [glyph, Option.map_eq_none_iff, List.lookup_eq_none_iff]
  refine fun row hrow => bne_iff_ne.mpr ?_
  rintro rfl
  exact h (List.mem_map_of_mem hrow)

/-- Settles O9: the statement's table is `glyphTable` with each literal read as its mask. -/
theorem glyphRomContents : Obligations.GlyphRomContents := by
  unfold Obligations.GlyphRomContents
  intro table
  have htable : table = glyphTable.map (fun row => (row.1, maskOfLiteral row.2)) := by decide
  refine ⟨rfl, fun x hx => ?_, fun c hc => glyph_eq_none ?_⟩
  · rw [htable] at hx
    obtain ⟨⟨code, literal⟩, hrow, rfl⟩ := List.mem_map.mp hx
    exact glyph_of_mem hrow
  · rw [htable, List.map_map] at hc
    exact hc

/-! ### Illegal commands (R142, R143, R318) -/

/-- An error only answers: a response changes no line and no claim (R322). -/
theorem State.raise_eq_answered (s : State) (e : Status) (v : Value) : s.raise e v = s.answered e 0 v := rfl

theorem step_illegal {s : State} {op : BitVec 4} {rest : List Word} (hpass : s.beginTurn.pass = .idle)
    (htask : s.beginTurn.task = .none) (h : decode s.beginTurn.pending = .illegal op rest) :
    step s = .next ((s.beginTurn.setPending rest).answered .illegalCommand 0 (op.setWidth 16)) := by
  simp only [step, hpass, htask, h, State.raise_eq_answered]

/-- Settles O13: the step raises the error, and a reserved OP is illegal whatever words follow. -/
theorem illegalCommandAnswers : Obligations.IllegalCommandAnswers := by
  unfold Obligations.IllegalCommandAnswers
  refine ⟨fun s op rest => step_illegal, fun s w ws hpass htask hport hop => ?_⟩
  exact step_illegal hpass htask (by rw [hport, decode_reserved ws hop])

end Sys2Proof.Machine
end

section
/-! Proofs: LOOKUP (spec/40_glyph_rom.md). -/
namespace Sys2Proof.Machine

/-- OK only answers: a response changes no line and no claim (R16). -/
theorem State.answer_eq_answered (s : State) (d : Byte) : s.answer d = s.answered .ok d 0 := rfl

section
variable {c : Byte} (s : State)

theorem exec_lookup_of_glyph {m : Byte} (h : glyph c = some m) : exec (.lookup c) s = .next (s.answered .ok m 0) := by
  simp only [exec, execLookup, h, State.answer_eq_answered]

theorem exec_lookup_of_no_glyph (h : glyph c = none) :
    exec (.lookup c) s = .next (s.answered .unsupportedCharacter 0 (c.setWidth 16)) := by
  simp only [exec, execLookup, h, State.raise_eq_answered]
end

/-- Settles O17: the ROM has a glyph for the code or it has none, and neither answer asks for the lifecycle (R316). -/
theorem lookupAnswers : Obligations.LookupAnswers := by
  unfold Obligations.LookupAnswers
  exact fun c s => ⟨fun m => exec_lookup_of_glyph s, exec_lookup_of_no_glyph s⟩

end Sys2Proof.Machine
end

section
/-! Proofs: CONFIG (spec/41_config.md). -/
namespace Sys2Proof.Machine

/-! ### The five checks, one equation per outcome (R181, R182) -/

section
variable {maxDigits : Nat} {pol : BitVec 2} {on dly : Int} {digs segs : List Nat}

theorem configCheck_segments (h : segs.length ≠ 8) : configCheck maxDigits pol on dly digs segs = some 1 :=
  if_pos h

theorem configCheck_digits (hsegs : segs.length = 8) (h : digs.length = 0 ∨ maxDigits < digs.length) :
    configCheck maxDigits pol on dly digs segs = some 2 := by
  rw [configCheck, if_neg (not_not.mpr hsegs), if_pos (by omega)]

/-- Past the checks of the two lists. -/
theorem configCheck_of_lists (hsegs : segs.length = 8) (hone : 1 ≤ digs.length) (hmax : digs.length ≤ maxDigits) :
    configCheck maxDigits pol on dly digs segs =
      if on < 0 then some 3 else if dly < 0 then some 4 else if (polarityOf pol).isNone then some 5 else none := by
  rw [configCheck, if_neg (not_not.mpr hsegs), if_neg (by omega)]

theorem configCheck_on (hsegs : segs.length = 8) (hone : 1 ≤ digs.length) (hmax : digs.length ≤ maxDigits)
    (h : on < 0) : configCheck maxDigits pol on dly digs segs = some 3 := by
  rw [configCheck_of_lists hsegs hone hmax, if_pos h]

theorem configCheck_dly (hsegs : segs.length = 8) (hone : 1 ≤ digs.length) (hmax : digs.length ≤ maxDigits)
    (hon : 0 ≤ on) (h : dly < 0) : configCheck maxDigits pol on dly digs segs = some 4 := by
  rw [configCheck_of_lists hsegs hone hmax, if_neg (not_lt.mpr hon), if_pos h]

/-- The polarity alone decides once the lists and the durations are good. -/
theorem configCheck_of_durations (hsegs : segs.length = 8) (hone : 1 ≤ digs.length) (hmax : digs.length ≤ maxDigits)
    (hon : 0 ≤ on) (hdly : 0 ≤ dly) :
    configCheck maxDigits pol on dly digs segs = if (polarityOf pol).isNone then some 5 else none := by
  rw [configCheck_of_lists hsegs hone hmax, if_neg (not_lt.mpr hon), if_neg (not_lt.mpr hdly)]

theorem configCheck_polarity (hsegs : segs.length = 8) (hone : 1 ≤ digs.length) (hmax : digs.length ≤ maxDigits)
    (hon : 0 ≤ on) (hdly : 0 ≤ dly) (h : pol = 2 ∨ pol = 3) :
    configCheck maxDigits pol on dly digs segs = some 5 := by
  rw [configCheck_of_durations hsegs hone hmax hon hdly]
  obtain rfl | rfl := h <;> rfl

theorem configCheck_passes (hsegs : segs.length = 8) (hone : 1 ≤ digs.length) (hmax : digs.length ≤ maxDigits)
    (hon : 0 ≤ on) (hdly : 0 ≤ dly) (h : pol = 0 ∨ pol = 1) :
    configCheck maxDigits pol on dly digs segs = none := by
  rw [configCheck_of_durations hsegs hone hmax hon hdly]
  obtain rfl | rfl := h <;> rfl
end

/-! ### The outcomes of the caller's CONFIG (R180, R188) -/

section
variable {pol : BitVec 2} {on dly : Int} {digs segs : List Nat} {s : State}

theorem exec_config_of_constructed {cfg : Cfg} {buf : List Byte} (hturn : s.turn = .caller)
    (hlife : s.life = .constructed cfg buf) :
    exec (.config pol on dly digs segs) s = .next (s.answered .alreadyConstructed 0 7) := by
  simp only [exec, execConfig, hturn, hlife, State.raise_eq_answered]

theorem exec_config_of_check_fails {k : Value} (hturn : s.turn = .caller) (hlife : s.life = .unconstructed)
    (h : configCheck s.config.maxDigits pol on dly digs segs = some k) :
    exec (.config pol on dly digs segs) s = .next (s.answered .configurationError 0 k) := by
  simp only [exec, execConfig, hturn, hlife, h, State.raise_eq_answered]

theorem exec_config_of_check_passes (hturn : s.turn = .caller) (hlife : s.life = .unconstructed)
    (h : configCheck s.config.maxDigits pol on dly digs segs = none)
    (hlines : ∀ l ∈ digs ++ segs, l < s.config.lineCount ∧ l ∉ s.config.heldElsewhere) :
    exec (.config pol on dly digs segs) s = .next ((s.construct (configOf pol on dly digs segs)).answer 0) := by
  have hcount : ¬ (digs ++ segs).any (fun l => decide (s.config.lineCount ≤ l)) = true := by
    simp only [List.any_eq_true, decide_eq_true_eq, not_exists, not_and, not_le]
    exact fun l hl => (hlines l hl).1
  have hheld : ¬ (digs ++ segs).any (fun l => s.config.heldElsewhere.contains l) = true := by
    simp only [List.any_eq_true, List.contains_iff_mem, not_exists, not_and]
    exact fun l hl => (hlines l hl).2
  simp only [exec, execConfig, hturn, hlife, h, if_neg hcount, if_neg hheld]
end

/-- Settles O36: a constructed block answers before any check of the operands. -/
theorem secondConfigRejected : Obligations.SecondConfigRejected := by
  unfold Obligations.SecondConfigRejected
  exact fun _ _ _ _ _ _ _ _ => exec_config_of_constructed

/-- Settles O35: the number answered is that of `configCheck`, which has an equation for each check. -/
theorem configChecksInOrder : Obligations.ConfigChecksInOrder := by
  unfold Obligations.ConfigChecksInOrder
  intro pol on dly digs segs s hturn hlife
  have answers (k : Value) := exec_config_of_check_fails (k := k) (pol := pol) (on := on) (dly := dly) (digs := digs)
    (segs := segs) hturn hlife
  refine ⟨?segments, ?digits, ?on, ?dly, ?polarity⟩
  case segments => exact fun h => answers 1 (configCheck_segments h)
  case digits => exact fun hsegs h => answers 2 (configCheck_digits hsegs h)
  case on => exact fun hsegs hone hmax h => answers 3 (configCheck_on hsegs hone hmax h)
  case dly => exact fun hsegs hone hmax hon h => answers 4 (configCheck_dly hsegs hone hmax hon h)
  case polarity =>
    exact fun hsegs hone hmax hon hdly h => answers 5 (configCheck_polarity hsegs hone hmax hon hdly h)

/-! ### The construction (R180, R185, R186) -/

/-- Emitting events adds them to the trace and runs them on the lines and the claims; the rest of the state stays. -/
theorem State.emitAll_eq (s : State) (es : List Event) :
    s.emitAll es = { s with
      claimed := es.foldl (fun c e => e.claims c) s.claimed
      lvl := es.foldl (fun m e => e.levels m) s.lvl
      trace := s.trace ++ es } := by
  induction es generalizing s with
  | nil => simp [State.emitAll]
  | cons e es ih => rw [State.emitAll_cons, ih]; simp [State.emit]

/-- The state in which a successful CONFIG leaves the block: `construct` and OK. -/
theorem State.construct_answer (s : State) (cfg : Cfg) :
    (s.construct cfg).answer 0 = { s with
      life := .constructed cfg (List.replicate cfg.digits 0)
      claimed := (configCalls cfg).foldl (fun c e => e.claims c) s.claimed
      lvl := (configCalls cfg).foldl (fun m e => e.levels m) s.lvl
      fsm := .idle
      trace := s.trace ++ configCalls cfg ++ [s.reply .ok 0 0] } := by
  rw [State.construct, State.emitAll_eq]; rfl

theorem length_flatMap_claimCalls (v : Level) (ls : List Nat) :
    (ls.flatMap (claimCalls v)).length = 2 * ls.length := by
  simp [claimCalls, List.length_flatMap, Nat.mul_comm]

/-- Every line is claimed and driven (R186). -/
theorem configCalls_length (cfg : Cfg) : (configCalls cfg).length = 2 * cfg.lines.length := by
  rw [configCalls, Cfg.lines, List.length_append, List.length_append, length_flatMap_claimCalls,
    length_flatMap_claimCalls, Nat.mul_add]

section
variable (on dly : Int) (digs segs : List Nat)

/-- COMMON_CATHODE: INACTIVE is HIGH for a digit line and LOW for a segment line (R270). -/
theorem configCalls_cathode :
    configCalls (configOf 0 on dly digs segs) =
      digs.flatMap (fun l => [.configureOutput l, .setLines [l]]) ++
        segs.flatMap (fun l => [.configureOutput l, .clearLines [l]]) := rfl

/-- COMMON_ANODE: INACTIVE is LOW for a digit line and HIGH for a segment line (R270). -/
theorem configCalls_anode :
    configCalls (configOf 1 on dly digs segs) =
      digs.flatMap (fun l => [.configureOutput l, .clearLines [l]]) ++
        segs.flatMap (fun l => [.configureOutput l, .setLines [l]]) := rfl
end

/-- Settles O33: the checks pass and no line is refused, so the block is constructed; the statement's calls are
`configCalls` at each of the two polarities. -/
theorem configConstructs : Obligations.ConfigConstructs := by
  unfold Obligations.ConfigConstructs
  intro pol on dly digs segs s hturn hlife hsegs hone hmax hon hdly hpol hlines calls
  have hcalls : calls = configCalls (configOf pol on dly digs segs) := by
    obtain rfl | rfl := hpol
    · exact (configCalls_cathode on dly digs segs).symm
    · exact (configCalls_anode on dly digs segs).symm
  have hcfg : configOf pol on dly digs segs =
      { dig := digs, seg := segs, pol := if pol = 0 then .commonCathode else .commonAnode, on := on.toNat,
        dly := dly.toNat } := by
    obtain rfl | rfl := hpol <;> rfl
  constructor
  · rw [exec_config_of_check_passes hturn hlife (configCheck_passes hsegs hone hmax hon hdly hpol) hlines,
      State.construct_answer, ← hcalls, hcfg]
    rfl
  · rw [hcalls, configCalls_length, Cfg.lines, List.length_append, ← hsegs]
    rfl

end Sys2Proof.Machine
end

section
/-! Proofs: SETDIGIT and SETCOMMA (spec/42_buffer_ops.md). -/
namespace Sys2Proof.Machine

/-- R210: the separator `.` has a glyph, the dot alone. -/
theorem glyph_dotCode : glyph dotCode = some 0x80 := by decide

section
variable {s : State} {cfg : Cfg} {buf : List Byte} {i : Nat} {c : Byte}

/-- A completed write: one entry is replaced and OK is added to the trace, and no field besides changes. -/
theorem State.bufWrite_answer (hlife : s.life = .constructed cfg buf) (m : Byte) :
    (s.bufWrite i m).answer 0 =
      { s with life := .constructed cfg (buf.set i m), trace := s.trace ++ [s.reply .ok 0 0] } := by
  rw [s.bufWrite_eq i m hlife, State.answer_eq_answered]; rfl

/-! The three outcomes of `State.setDigit`, in the order of its checks (R200). -/

theorem State.setDigit_of_index_out (hi : cfg.digits ≤ i) :
    s.setDigit cfg i c = s.answered .rangeError 0 (BitVec.ofNat 16 i) := by
  rw [State.setDigit, if_pos hi, State.raise_eq_answered]

theorem State.setDigit_of_no_glyph (hi : i < cfg.digits) (hc : glyph c = none) :
    s.setDigit cfg i c = s.answered .unsupportedCharacter 0 (c.setWidth 16) := by
  simp only [State.setDigit, if_neg (Nat.not_le.mpr hi), hc, State.raise_eq_answered]

theorem State.setDigit_of_glyph (hlife : s.life = .constructed cfg buf) (hi : i < cfg.digits) {m : Byte}
    (hc : glyph c = some m) :
    s.setDigit cfg i c =
      { s with life := .constructed cfg (buf.set i m), trace := s.trace ++ [s.reply .ok 0 0] } := by
  simp only [State.setDigit, if_neg (Nat.not_le.mpr hi), hc, State.bufWrite_answer hlife]

/-! On a constructed block both commands are `State.setDigit`. -/

theorem exec_setdigit_of_constructed (hlife : s.life = .constructed cfg buf) :
    exec (.setdigit i c) s = .next (s.setDigit cfg i c) := by
  simp only [exec, execSetdigit, hlife]

theorem exec_setcomma_of_constructed (hlife : s.life = .constructed cfg buf) :
    exec (.setcomma i) s = .next (s.setDigit cfg i dotCode) := by
  simp only [exec, execSetcomma, hlife]
end

/-- Settles O18: on a constructed block SETDIGIT is `State.setDigit`, which has an equation for each outcome. -/
theorem setdigitReplacesEntry : Obligations.SetdigitReplacesEntry := by
  unfold Obligations.SetdigitReplacesEntry
  intro i c s cfg buf hlife
  rw [exec_setdigit_of_constructed hlife]
  refine ⟨?outOfRange, ?noGlyph, ?replaced⟩
  case outOfRange => exact fun hi => congrArg _ (State.setDigit_of_index_out hi)
  case noGlyph => exact fun hi hc => congrArg _ (State.setDigit_of_no_glyph hi hc)
  case replaced => exact fun m hi hc => congrArg _ (State.setDigit_of_glyph hlife hi hc)

/-- Settles O22: SETCOMMA is SETDIGIT's effect with `.`, which has a glyph, so two of the three outcomes are left. -/
theorem setcommaReplacesEntry : Obligations.SetcommaReplacesEntry := by
  unfold Obligations.SetcommaReplacesEntry
  intro i s cfg buf hlife
  rw [exec_setcomma_of_constructed hlife]
  refine ⟨?outOfRange, ?replaced⟩
  case outOfRange => exact fun hi => congrArg _ (State.setDigit_of_index_out hi)
  case replaced => exact fun hi => congrArg _ (State.setDigit_of_glyph hlife hi glyph_dotCode)

end Sys2Proof.Machine
end

section
/-! Proofs: SETSTR's checks and the empty text (spec/43_setstring.md). -/
namespace Sys2Proof.Machine

/-! ### The four capacity checks, one equation per outcome (R231, R232, R233, R236) -/

section
variable {n : Nat} {t : List Byte}

theorem textCheck_length (h : 2 * n < t.length) : textCheck n t = some (.stringTooLong, 1) :=
  if_pos h

theorem textCheck_separators (hlen : t.length ≤ 2 * n) (h : n < sepCount t) :
    textCheck n t = some (.tooManySeparators, 2) := by
  rw [textCheck, if_neg (not_lt.mpr hlen), if_pos h]

theorem textCheck_characters (hlen : t.length ≤ 2 * n) (hseps : sepCount t ≤ n) (h : n < t.length - sepCount t) :
    textCheck n t = some (.stringTooLong, 3) := by
  rw [textCheck, if_neg (not_lt.mpr hlen), if_neg (not_lt.mpr hseps), if_pos h]

/-- Past the checks of the text as given, the spaced text decides. -/
theorem textCheck_of_given_fits (hlen : t.length ≤ 2 * n) (hseps : sepCount t ≤ n)
    (hchars : t.length - sepCount t ≤ n) :
    textCheck n t =
      if 2 * n < (spacedText t).length ∨ n < (spacedText t).length - sepCount (spacedText t) then
        some (.tooManySeparators, 6)
      else none := by
  rw [textCheck, if_neg (not_lt.mpr hlen), if_neg (not_lt.mpr hseps), if_neg (not_lt.mpr hchars)]

theorem textCheck_spaced (hlen : t.length ≤ 2 * n) (hseps : sepCount t ≤ n) (hchars : t.length - sepCount t ≤ n)
    (h : 2 * n < (spacedText t).length ∨ n < (spacedText t).length - sepCount (spacedText t)) :
    textCheck n t = some (.tooManySeparators, 6) := by
  rw [textCheck_of_given_fits hlen hseps hchars, if_pos h]

theorem textCheck_passes (hlen : t.length ≤ 2 * n) (hseps : sepCount t ≤ n) (hchars : t.length - sepCount t ≤ n)
    (hvlen : (spacedText t).length ≤ 2 * n) (hvchars : (spacedText t).length - sepCount (spacedText t) ≤ n) :
    textCheck n t = none := by
  rw [textCheck_of_given_fits hlen hseps hchars, if_neg (not_or.mpr ⟨not_lt.mpr hvlen, not_lt.mpr hvchars⟩)]
end

/-! ### SETSTR on a constructed block (R230) -/

section
variable {s : State} {cfg : Cfg} {buf t : List Byte}

theorem exec_setstr_of_check_fails {e : Status} {v : Value} (hlife : s.life = .constructed cfg buf)
    (h : textCheck cfg.digits t = some (e, v)) : exec (.setstr t) s = .next (s.answered e 0 v) := by
  simp only [exec, execSetstr, hlife, h, State.raise_eq_answered]

theorem exec_setstr_of_check_passes (hlife : s.life = .constructed cfg buf) (h : textCheck cfg.digits t = none) :
    exec (.setstr t) s = .next (s.startRender 0 (textChars t) (textDots t)).settle := by
  simp only [exec, execSetstr, hlife, h]
end

/-- Settles O26: the answer is that of `textCheck`, which has an equation for each check. -/
theorem setstrCapacityErrors : Obligations.SetstrCapacityErrors := by
  unfold Obligations.SetstrCapacityErrors
  intro t s cfg buf hlife
  refine ⟨?length, ?separators, ?characters, ?spaced⟩
  case length => exact fun h => exec_setstr_of_check_fails hlife (textCheck_length h)
  case separators => exact fun hlen h => exec_setstr_of_check_fails hlife (textCheck_separators hlen h)
  case characters => exact fun hlen hseps h => exec_setstr_of_check_fails hlife (textCheck_characters hlen hseps h)
  case spaced =>
    exact fun hlen hseps hchars h => exec_setstr_of_check_fails hlife (textCheck_spaced hlen hseps hchars h)

/-! ### The empty text (R243) -/

/-- No space is inserted into the empty text (R234, R235). -/
@[simp] theorem spacedText_nil : spacedText [] = [] := rfl
@[simp] theorem sepCount_nil : sepCount [] = 0 := rfl
@[simp] theorem textChars_nil : textChars [] = [] := rfl
@[simp] theorem textDots_nil : textDots [] = [] := rfl

/-- The empty text passes every check whatever the number of digits. -/
theorem textCheck_nil (n : Nat) : textCheck n [] = none := by
  apply textCheck_passes <;> simp

@[simp] theorem State.startRender_nil_nil (s : State) (d : Nat) : s.startRender d [] [] = s.finishTask := rfl

section
variable (s : State)

@[simp] theorem State.setTask_task_self : s.setTask s.task = s := by
  unfold State.task State.setTask
  split <;> rfl

variable {s}

/-- Ending the progress of an agent that is inside no command changes nothing. -/
theorem State.setTask_none_of_task_none (h : s.task = .none) : s.setTask .none = s := by
  rw [← h, State.setTask_task_self]

/-- With or without a writer, a command with no atomic step left is where it ends. -/
theorem State.settle_of_task_none (h : s.task = .none) : s.settle = s := by
  rw [State.settle, drain_of_none _ _ h, ite_self]
end

/-- Settles O29: the checks pass and there is nothing to render, so the command is done at once. -/
theorem emptyTextWritesNothing : Obligations.EmptyTextWritesNothing := by
  unfold Obligations.EmptyTextWritesNothing
  intro s cfg buf hlife htask
  rw [exec_setstr_of_check_passes hlife (textCheck_nil _), textChars_nil, textDots_nil, State.startRender_nil_nil,
    State.settle_of_task_none s.finishTask_task, State.finishTask, State.setTask_none_of_task_none htask,
    State.answer_eq_answered]

end Sys2Proof.Machine
end

section
/-! Proofs: REFRESH (spec/44_refresh.md). -/
namespace Sys2Proof.Machine

/-! ### The levels of a polarity (R270, R271) -/

/-- Settles O38: the table of R270 and the two calls of R271 are the values of the definitions. -/
theorem polarityLevels : Obligations.PolarityLevels := by
  unfold Obligations.PolarityLevels
  exact ⟨rfl, rfl, rfl, rfl, rfl, rfl, rfl, rfl, fun _ => ⟨rfl, rfl⟩⟩

/-! ### A pass blocks the command port (R283) -/

section
variable {s t : State} {d : Nat} {p : Phase}

/-- The pass is the caller's: on its turn it sees the state machine itself (R283). -/
theorem State.pass_of_caller (h : s.turn = .caller) : s.pass = s.fsm := by
  simp only [State.pass, h]

theorem step_of_pass_busy (h : s.beginTurn.pass = .busy d p) : step s = runPhase d p s.beginTurn := by
  simp only [step, h]

/-- A phase takes no word from the command port and leaves the caller where it stands. -/
theorem runPhase_callerPort_callerTask (h : runPhase d p s = .next t) :
    t.callerPort = s.callerPort ∧ t.callerTask = s.callerTask := by
  obtain ⟨cfg, buf, l, -, -, rfl⟩ := runPhase_cases h
  simp
end

/-- Settles O15: on the caller's turn a BUSY state machine makes the step one phase, which takes no word. -/
theorem passBlocksCommandPort : Obligations.PassBlocksCommandPort := by
  unfold Obligations.PassBlocksCommandPort
  intro s d p hfsm hturn
  have hstep : step s = runPhase d p s.beginTurn :=
    step_of_pass_busy (by rw [State.pass_of_caller hturn, State.beginTurn_fsm, hfsm])
  refine ⟨hstep, fun t ht => ?_⟩
  rw [hstep] at ht
  simpa using runPhase_callerPort_callerTask ht

/-! ### The calls of a pass (R272, R274, R285) -/

/-- R274's six calls of a digit are the calls of its six phases, in order (R272). -/
theorem digitCalls_eq_phaseCalls (cfg : Cfg) (l : Nat) (m : Byte) :
    digitCalls cfg l m =
      [.digOn, .segOn, .holdOn, .segOff, .digOff, .holdDly].map (phaseCall cfg l m) := by
  obtain ⟨dig, seg, pol, on, dly⟩ := cfg
  cases pol <;> rfl

/-- A SleepUs call (R285). -/
def Event.isHold : Event → Bool
  | .sleepUs _ => true
  | _ => false

@[simp] theorem Event.hold_sleepUs (t : Nat) : (Event.sleepUs t).hold = t := rfl

@[simp] theorem Event.isHold_sleepUs (t : Nat) : (Event.sleepUs t).isHold = true := rfl

/-- No call that drives lines is a hold, whatever the level. -/
@[simp] theorem drive_isHold (S : LineSet) (v : Level) : (drive S v).isHold = false := by cases v <;> rfl

section
variable (cfg : Cfg)

theorem length_digitCalls (l : Nat) (m : Byte) : (digitCalls cfg l m).length = 6 := by
  rw [digitCalls_eq_phaseCalls, List.length_map]; rfl

theorem length_filter_isHold_digitCalls (l : Nat) (m : Byte) :
    ((digitCalls cfg l m).filter Event.isHold).length = 2 := by
  simp [digitCalls_eq_phaseCalls, phaseCall, List.filter_cons]

theorem holdSum_digitCalls (l : Nat) (m : Byte) : holdSum (digitCalls cfg l m) = cfg.on + cfg.dly := by
  simp [digitCalls_eq_phaseCalls, phaseCall, holdSum]

/-- A quantity that adds up along a trace and is `k` for the calls of each digit is `N * k` for a pass. -/
theorem passCalls_additive (buf : List Byte) {f : List Event → Nat} {k : Nat} (hnil : f [] = 0)
    (happend : ∀ t u, f (t ++ u) = f t + f u) (hdigit : ∀ l m, f (digitCalls cfg l m) = k) :
    f (passCalls cfg buf) = cfg.digits * k := by
  unfold passCalls
  induction cfg.digits with
  | zero => rw [List.range_zero, List.flatMap_nil, hnil, Nat.zero_mul]
  | succ n ih => rw [List.range_succ, List.flatMap_append, happend, ih, List.flatMap_singleton, hdigit, Nat.succ_mul]
end

/-- Settles O42: the calls, the holds and the hold time each add up over the digits, and the six calls of a digit have
two holds, of ON and DLY. -/
theorem passLengthAndHoldSum : Obligations.PassLengthAndHoldSum := by
  unfold Obligations.PassLengthAndHoldSum
  intro cfg buf
  refine ⟨?calls, ?holds, ?time⟩
  case calls =>
    rw [Nat.mul_comm]
    exact passCalls_additive cfg buf rfl (fun _ _ => List.length_append) (length_digitCalls cfg)
  case holds =>
    rw [Nat.mul_comm]
    exact passCalls_additive cfg buf (f := fun t => (t.filter Event.isHold).length) rfl
      (fun _ _ => by rw [List.filter_append, List.length_append]) (length_filter_isHold_digitCalls cfg)
  case time => exact passCalls_additive cfg buf rfl holdSum_append (holdSum_digitCalls cfg)

/-! ### The other polarity (R286) -/

/-- The COMMON_ANODE calls of a digit are the inverted COMMON_CATHODE calls. -/
theorem digitCalls_anode (cfg : Cfg) (l : Nat) (m : Byte) :
    digitCalls { cfg with pol := .commonAnode } l m =
      (digitCalls { cfg with pol := .commonCathode } l m).map Event.inverted := rfl

/-- The COMMON_ANODE calls of a pass are the inverted COMMON_CATHODE calls. -/
theorem passCalls_anode (cfg : Cfg) (buf : List Byte) :
    passCalls { cfg with pol := .commonAnode } buf =
      (passCalls { cfg with pol := .commonCathode } buf).map Event.inverted := by
  unfold passCalls
  rw [List.map_flatMap]
  exact List.flatMap_congr fun d _ => digitCalls_anode cfg _ _

section
variable {m m' : Memory} {l : Nat}

/-- An event and its inversion keep the level of a line complementary: a driven line gets opposite levels, any other
keeps what it had. -/
theorem Event.read_inverted_levels (e : Event) (h : m'.read l = (m.read l).opposite) :
    (e.inverted.levels m').read l = ((e.levels m).read l).opposite := by
  cases e with
  | setLines S =>
    rw [Event.inverted, Event.levels_clearLines, Event.levels_setLines, Memory.read_writeAll, Memory.read_writeAll, h]
    split <;> rfl
  | clearLines S =>
    rw [Event.inverted, Event.levels_setLines, Event.levels_clearLines, Memory.read_writeAll, Memory.read_writeAll, h]
    split <;> rfl
  | configureOutput k => exact h
  | sleepUs t => exact h
  | response a r => exact h

theorem read_foldl_inverted_levels (es : List Event) (h : m'.read l = (m.read l).opposite) :
    ((es.map Event.inverted).foldl (fun m e => e.levels m) m').read l =
      ((es.foldl (fun m e => e.levels m) m).read l).opposite := by
  induction es generalizing m m' with
  | nil => exact h
  | cons e es ih => exact ih (e.read_inverted_levels h)
end

/-- Settles O43: the calls are inverted digit by digit, and the levels stay complementary event by event. -/
theorem polarityInvertsPass : Obligations.PolarityInvertsPass := by
  unfold Obligations.PolarityInvertsPass
  refine fun cfg buf => ⟨passCalls_anode cfg buf, fun n l m m' h => ?_⟩
  rw [passCalls_anode, ← List.map_take]
  exact read_foldl_inverted_levels _ h

end Sys2Proof.Machine
end

section
/-! Proofs: commands before CONFIG (spec/60_exceptions.md). -/
namespace Sys2Proof.Machine

/-! ### The five commands that need a constructed block (R316) -/

section
variable {s : State} (hlife : s.life = .unconstructed)
include hlife

theorem exec_setdigit_of_unconstructed (i : Nat) (c : Byte) :
    exec (.setdigit i c) s = .next (s.answered .notConstructed 0 2) := by
  simp only [exec, execSetdigit, hlife, State.raise_eq_answered]

theorem exec_setseg_of_unconstructed (i g : Nat) :
    exec (.setseg i g) s = .next (s.answered .notConstructed 0 3) := by
  simp only [exec, execSetseg, hlife, State.raise_eq_answered]

theorem exec_setcomma_of_unconstructed (i : Nat) :
    exec (.setcomma i) s = .next (s.answered .notConstructed 0 4) := by
  simp only [exec, execSetcomma, hlife, State.raise_eq_answered]

theorem exec_setstr_of_unconstructed (text : List Byte) :
    exec (.setstr text) s = .next (s.answered .notConstructed 0 5) := by
  simp only [exec, execSetstr, hlife, State.raise_eq_answered]

theorem exec_refresh_of_unconstructed (hturn : s.turn = .caller) :
    exec .refresh s = .next (s.answered .notConstructed 0 6) := by
  simp only [exec, execRefresh, hturn, hlife, State.raise_eq_answered]
end

/-! ### The response that a command's trace ends with (R49) -/

section
variable (s : State)

@[simp] theorem State.reply_inj {e e' : Status} {d d' : Byte} {v v' : Value} :
    s.reply e d v = s.reply e' d' v' ↔ e = e' ∧ d = d' ∧ v = v' := by
  simp [State.reply]

@[simp] theorem State.answered_getLast? (e : Status) (d : Byte) (v : Value) :
    (s.answered e d v).trace.getLast? = some (s.reply e d v) :=
  List.getLast?_concat

/-- The calls of a construction stand before its OK. -/
theorem State.construct_answer_getLast? (cfg : Cfg) :
    ((s.construct cfg).answer 0).trace.getLast? = some (s.reply .ok 0 0) := by
  rw [State.construct_answer]
  exact List.getLast?_concat
end

/-! ### LOOKUP and CONFIG ask for no constructed block (R316) -/

section
variable {s t : State} {data : Byte} {value : Value}

/-- A CONFIG that passes the five checks and is not refused has constructed the block. -/
theorem exec_config_next_of_check_passes {pol : BitVec 2} {on dly : Int} {digs segs : List Nat}
    (hturn : s.turn = .caller) (hlife : s.life = .unconstructed)
    (hcheck : configCheck s.config.maxDigits pol on dly digs segs = none)
    (h : exec (.config pol on dly digs segs) s = .next t) :
    t = (s.construct (configOf pol on dly digs segs)).answer 0 := by
  simp only [exec, execConfig, hturn, hlife, hcheck] at h
  split at h
  · cases h
  · split at h <;> cases h
    rfl

/-- LOOKUP answers OK or UnsupportedCharacterError. -/
theorem exec_lookup_ne_notConstructed {c : Byte} (h : exec (.lookup c) s = .next t) :
    t.trace.getLast? ≠ some (s.reply .notConstructed data value) := by
  cases hglyph : glyph c with
  | none =>
    rw [exec_lookup_of_no_glyph s hglyph] at h
    cases h
    simp
  | some m =>
    rw [exec_lookup_of_glyph s hglyph] at h
    cases h
    simp

/-- CONFIG answers AlreadyConstructed, ConfigurationError or OK. -/
theorem exec_config_ne_notConstructed {pol : BitVec 2} {on dly : Int} {digs segs : List Nat}
    (h : exec (.config pol on dly digs segs) s = .next t) :
    t.trace.getLast? ≠ some (s.reply .notConstructed data value) := by
  obtain ⟨hturn, -⟩ := execConfig_cases h
  cases hlife : s.life with
  | constructed cfg buf =>
    rw [exec_config_of_constructed hturn hlife] at h
    cases h
    simp
  | unconstructed =>
    cases hcheck : configCheck s.config.maxDigits pol on dly digs segs with
    | some k =>
      rw [exec_config_of_check_fails hturn hlife hcheck] at h
      cases h
      simp
    | none =>
      obtain rfl := exec_config_next_of_check_passes hturn hlife hcheck h
      rw [State.construct_answer_getLast?]
      simp
end

/-- Settles O23: each of the five looks at the lifecycle first, and every answer of LOOKUP and of CONFIG has another
status. -/
theorem notConstructedBeforeConfig : Obligations.NotConstructedBeforeConfig := by
  unfold Obligations.NotConstructedBeforeConfig
  constructor
  · exact fun s i g c text hlife =>
      ⟨exec_setdigit_of_unconstructed hlife i c, exec_setseg_of_unconstructed hlife i g,
        exec_setcomma_of_unconstructed hlife i, exec_setstr_of_unconstructed hlife text,
        exec_refresh_of_unconstructed hlife⟩
  · rintro s t c pol on dly digs segs data value (hlookup | hconfig)
    · exact exec_lookup_ne_notConstructed hlookup
    · exact exec_config_ne_notConstructed hconfig

end Sys2Proof.Machine
end

section
/-! Proofs: the decoder and the encoder agree (spec/30_encoding.md). -/
namespace Sys2Proof

/-! ### The bytes of a payload (R136) -/

/-- The bytes of a payload, low byte first, in the order of its words (R136). -/
def payloadBytes (ps : List Word) : List Byte := ps.flatMap wordBytes

/-- How many padding bytes the last word of a text of `len` characters holds (R136). -/
def padding (len : Nat) : Nat := 4 * ((len + 3) / 4) - len

@[simp] theorem payloadBytes_nil : payloadBytes [] = [] := rfl

@[simp] theorem payloadBytes_cons (w : Word) (ps : List Word) :
    payloadBytes (w :: ps) = wordBytes w ++ payloadBytes ps := rfl

@[simp] theorem length_wordBytes (w : Word) : (wordBytes w).length = 4 := rfl

@[simp] theorem length_payloadBytes (ps : List Word) : (payloadBytes ps).length = 4 * ps.length := by
  induction ps with
  | nil => rfl
  | cons w ps ih => rw [payloadBytes_cons, List.length_append, ih, length_wordBytes, List.length_cons]; omega

theorem getD_wordBytes (w : Word) {j : Nat} (hj : j < 4) :
    (wordBytes w).getD j 0 = w.extractLsb' (8 * j) 8 := by
  interval_cases j <;> rfl

/-- Byte `j` of a payload is byte `j mod 4`, low byte first, of word `j div 4`. -/
theorem getD_payloadBytes (ps : List Word) (j : Nat) :
    (payloadBytes ps).getD j 0 = (ps.getD (j / 4) 0).extractLsb' (8 * (j % 4)) 8 := by
  induction ps generalizing j with
  | nil => simp
  | cons w ps ih =>
    rw [payloadBytes_cons]
    rcases Nat.lt_or_ge j 4 with hj | hj
    · rw [List.getD_append _ _ _ _ (by simpa using hj), getD_wordBytes w hj, Nat.div_eq_of_lt hj, Nat.mod_eq_of_lt hj,
        List.getD_cons_zero]
    · have hdiv : j / 4 = (j - 4) / 4 + 1 := by omega
      have hmod : j % 4 = (j - 4) % 4 := by omega
      rw [List.getD_append_right _ _ _ _ (by simpa using hj), length_wordBytes, ih, hdiv, hmod, List.getD_cons_succ]

/-- A packed text's bytes are its characters and then its padding, which is zero. -/
theorem payloadBytes_packText : ∀ t : List Byte,
    payloadBytes (packText t) = t ++ List.replicate (padding t.length) 0
  | [] => rfl
  | [a] => by simp [packText, padding]
  | [a, b] => by simp [packText, padding]
  | [a, b, c] => by simp [packText, padding]
  | a :: b :: c :: d :: rest => by
    have hpad : padding (rest.length + 1 + 1 + 1 + 1) = padding rest.length := by unfold padding; omega
    rw [packText, payloadBytes_cons, wordBytes_packWord, payloadBytes_packText rest]
    simp only [List.length_cons, hpad, List.cons_append, List.nil_append]

/-- Packing the bytes of a payload gives its words back. -/
theorem packText_payloadBytes (ps : List Word) : packText (payloadBytes ps) = ps := by
  induction ps with
  | nil => rfl
  | cons w ps ih =>
    rw [payloadBytes_cons]
    exact congrArg₂ List.cons (packWord_bytes w) ih

theorem payloadBytes_injective : Function.Injective payloadBytes :=
  Function.LeftInverse.injective packText_payloadBytes

/-- Settles O7: the bytes of the packed text are the text and its padding. -/
theorem textPackedLowByteFirst : Obligations.TextPackedLowByteFirst := by
  unfold Obligations.TextPackedLowByteFirst
  refine fun t => ⟨Laws.EncodedLength.packText_length t, fun j _ => ?_⟩
  rw [← getD_payloadBytes, payloadBytes_packText]
  rcases Nat.lt_or_ge j t.length with hj | hj
  · rw [List.getD_append _ _ _ _ hj]
  · rw [List.getD_append_right _ _ _ _ hj, List.getD_eq_default _ _ hj]
    simp

/-! ### One equation per command with a payload (R136, R140) -/

/-- The padding of a SETSTR whose command word is `w` is zero (R136, R143). -/
abbrev paddingIsZero (w : Word) (ps : List Word) : Prop :=
  (payloadBytes ps).drop (wordLen w).toNat = List.replicate (4 * ps.length - (wordLen w).toNat) 0

theorem drop_all_zero_iff (bytes : List Byte) (len : Nat) :
    (bytes.drop len).all (· == 0) = true ↔ bytes.drop len = List.replicate (bytes.length - len) 0 := by
  simp [List.eq_replicate_iff]

section
variable {w : Word} (ps : List Word)

theorem decodeCommand_setstr (h : wordOp w = 5) :
    decodeCommand w ps = if wordIdx w = 0 ∧ paddingIsZero w ps then
      some (.setstr ((payloadBytes ps).take (wordLen w).toNat)) else none := by
  unfold paddingIsZero
  rw [← length_payloadBytes]
  simp only [decodeCommand, h, ← drop_all_zero_iff]
  rfl

theorem decodeCommand_config (h : wordOp w = 7) :
    decodeCommand w ps = if w.extractLsb' 2 6 = 0 then
      some (.config (w.extractLsb' 0 2) (ps.getD 0 0).toInt (ps.getD 1 0).toInt
        (((ps.drop 2).take (wordIdx w).toNat).map BitVec.toNat)
        (((ps.drop (2 + (wordIdx w).toNat)).take (wordB w).toNat).map BitVec.toNat)) else none := by
  simp only [decodeCommand, h]; rfl
end

/-! ### The two parts of CONFIG's low byte (R140) -/

theorem extractLsb'_2_6_wordC (w : Word) : (wordC w).extractLsb' 2 6 = w.extractLsb' 2 6 :=
  BitVec.extractLsb'_extractLsb'_of_le (by decide)

theorem extractLsb'_0_2_wordC (w : Word) : (wordC w).extractLsb' 0 2 = w.extractLsb' 0 2 :=
  BitVec.extractLsb'_extractLsb'_of_le (by decide)

theorem extractLsb'_0_2_setWidth (pol : BitVec 2) : (pol.setWidth 8).extractLsb' 0 2 = pol := by
  rw [BitVec.extractLsb'_setWidth_of_le (by decide), BitVec.extractLsb'_eq_self]

theorem extractLsb'_2_6_setWidth (pol : BitVec 2) : (pol.setWidth 8).extractLsb' 2 6 = 0 := by
  revert pol; decide

theorem setWidth_extractLsb'_0_2 {c : Byte} (h : c.extractLsb' 2 6 = 0) : (c.extractLsb' 0 2).setWidth 8 = c := by
  simp only [← BitVec.toNat_inj, BitVec.extractLsb'_toNat, Nat.shiftRight_eq_div_pow, BitVec.toNat_setWidth,
    BitVec.ofNat_eq_ofNat, BitVec.toNat_ofNat] at h ⊢
  omega

/-! ### Decoding what was encoded -/

/-- A whole command on the port: the payload its command word asks for, and the words after it. -/
theorem decode_append {w : Word} {ps : List Word} {i : Instr} (rest : List Word) (hlen : ps.length = payloadLength w)
    (h : decodeCommand w ps = some i) : decode (w :: (ps ++ rest)) = .command i rest := by
  simp [decode_command_iff, ← hlen, h]

/-- A well-formed command's words decode to it as soon as its payload does under its command word (R141). -/
theorem decode_encode_append {w : Word} {ps : List Word} {i : Instr} (rest : List Word) (hwf : i.wellFormed = true)
    (hlength : Laws.EncodedLength.Statement i) (hencode : encode i = w :: ps) (h : decodeCommand w ps = some i) :
    decode (encode i ++ rest) = .command i rest := by
  obtain ⟨w', ps', hencode', hlen⟩ := hlength hwf
  obtain ⟨rfl, rfl⟩ := List.cons.inj (hencode.symm.trans hencode')
  rw [hencode]
  exact decode_append rest hlen h

theorem wordLen_setstr_word {len : Nat} (h : len < 65536) :
    (wordLen (commandWord 5 0 (BitVec.ofNat 8 (len / 256)) (BitVec.ofNat 8 len))).toNat = len := by
  rw [wordLen_eq, wordB_commandWord, wordC_commandWord, BitVec.toNat_ofNat, BitVec.toNat_ofNat]
  omega

theorem decode_encode_setstr (t : List Byte) (rest : List Word) (hwf : (Instr.setstr t).wellFormed = true) :
    decode (encode (.setstr t) ++ rest) = .command (.setstr t) rest := by
  have hlen : t.length < 65536 := by simpa [Instr.wellFormed, fitsLen] using hwf
  refine decode_encode_append rest hwf (Laws.EncodedLength.setstr t) rfl ?_
  have hzero : paddingIsZero (commandWord 5 0 (BitVec.ofNat 8 (t.length / 256)) (BitVec.ofNat 8 t.length))
      (packText t) := by
    rw [paddingIsZero, wordLen_setstr_word hlen, payloadBytes_packText, List.drop_left,
      Laws.EncodedLength.packText_length, padding]
  rw [decodeCommand_setstr _ (wordOp_commandWord ..), if_pos ⟨wordIdx_commandWord .., hzero⟩,
    wordLen_setstr_word hlen, payloadBytes_packText, List.take_left]

theorem toInt_ofInt_of_fitsSigned {t : Int} (h : fitsSigned t = true) : (BitVec.ofInt 32 t).toInt = t := by
  obtain ⟨hlo, hhi⟩ := of_decide_eq_true h
  exact BitVec.toInt_ofInt_eq_self (by decide) hlo hhi

theorem map_toNat_map_ofNat_of_fitsWord {ls : List Nat} (h : ls.all fitsWord = true) :
    (ls.map (BitVec.ofNat 32)).map BitVec.toNat = ls := by
  rw [List.map_map, List.map_congr_left, List.map_id]
  intro l hl
  exact Nat.mod_eq_of_lt (of_decide_eq_true (List.all_eq_true.mp h l hl))

theorem decode_encode_config (pol : BitVec 2) (on dly : Int) (digs segs : List Nat) (rest : List Word)
    (hwf : (Instr.config pol on dly digs segs).wellFormed = true) :
    decode (encode (.config pol on dly digs segs) ++ rest) = .command (.config pol on dly digs segs) rest := by
  refine decode_encode_append rest hwf (Laws.EncodedLength.config pol on dly digs segs) rfl ?_
  simp only [Instr.wellFormed, Bool.and_eq_true] at hwf
  obtain ⟨⟨⟨⟨⟨hon, hdly⟩, hdigs⟩, hsegs⟩, hdigWords⟩, hsegWords⟩ := hwf
  have hn : (BitVec.ofNat 12 digs.length).toNat = digs.length := Nat.mod_eq_of_lt (of_decide_eq_true hdigs)
  have hk : (BitVec.ofNat 8 segs.length).toNat = segs.length := Nat.mod_eq_of_lt (of_decide_eq_true hsegs)
  rw [decodeCommand_config _ (wordOp_commandWord ..), ← extractLsb'_2_6_wordC, ← extractLsb'_0_2_wordC,
    wordC_commandWord, wordIdx_commandWord, wordB_commandWord, extractLsb'_0_2_setWidth,
    if_pos (extractLsb'_2_6_setWidth pol), hn, hk]
  have hdrop : 2 + digs.length = digs.length + 1 + 1 := by omega
  simp [hdrop, List.drop_append, toInt_ofInt_of_fitsSigned hon, toInt_ofInt_of_fitsSigned hdly,
    map_toNat_map_ofNat_of_fitsWord hdigWords, map_toNat_map_ofNat_of_fitsWord hsegWords]

/-- Settles O3: the one-word commands have an equation each; a text is the front of its packed bytes, and each word of
CONFIG carries its operand. -/
theorem decodeEncodeAgree : Obligations.DecodeEncodeAgree := by
  unfold Obligations.DecodeEncodeAgree
  intro i rest hwf
  cases i with
  | lookup c => exact decode_lookup_word rest c
  | setdigit i c => exact decode_setdigit_word rest c i (of_decide_eq_true hwf)
  | setseg i g =>
    obtain ⟨hi, hg⟩ := Bool.and_eq_true_iff.mp hwf
    exact decode_setseg_word rest i g (of_decide_eq_true hi) (of_decide_eq_true hg)
  | setcomma i => exact decode_setcomma_word rest i (of_decide_eq_true hwf)
  | setstr t => exact decode_encode_setstr t rest hwf
  | refresh => exact decode_refresh_word rest
  | config pol on dly digs segs => exact decode_encode_config pol on dly digs segs rest hwf

/-! ### Encoding what was decoded -/

/-- The OP of a command word, as the rows of R132 tell them apart. -/
theorem wordOp_cases (w : Word) :
    (wordOp w = 0 ∨ 8 ≤ (wordOp w).toNat) ∨ wordOp w = 1 ∨ wordOp w = 2 ∨ wordOp w = 3 ∨ wordOp w = 4 ∨
      wordOp w = 5 ∨ wordOp w = 6 ∨ wordOp w = 7 := by
  generalize wordOp w = op
  revert op; decide

/-- What the decoder reads from a command word and its whole payload is well formed, and its encoding is those words. -/
def EncodesTo (w : Word) (ps : List Word) (i : Instr) : Prop := i.wellFormed = true ∧ encode i = w :: ps

theorem fitsIdx_toNat (x : BitVec 12) : fitsIdx x.toNat = true := decide_eq_true x.isLt
theorem fitsB_toNat (x : Byte) : fitsB x.toNat = true := decide_eq_true x.isLt
theorem fitsSigned_toInt (x : Word) : fitsSigned x.toInt = true :=
  decide_eq_true ⟨BitVec.le_toInt x, BitVec.toInt_lt⟩
theorem all_fitsWord_map_toNat (ws : List Word) : (ws.map BitVec.toNat).all fitsWord = true :=
  List.all_eq_true.mpr fun l hl => by
    obtain ⟨w, -, rfl⟩ := List.mem_map.mp hl
    exact decide_eq_true w.isLt

/-- A command word whose fields are known. -/
theorem commandWord_eq {w : Word} {op : BitVec 4} {idx : BitVec 12} {b c : Byte} (hop : wordOp w = op)
    (hidx : wordIdx w = idx) (hb : wordB w = b) (hc : wordC w = c) : commandWord op idx b c = w := by
  rw [← hop, ← hidx, ← hb, ← hc, commandWord_fields]

section
variable {w : Word} {i : Instr}

theorem encodesTo_of_lookup (hop : wordOp w = 1) (h : decodeCommand w [] = some i) : EncodesTo w [] i := by
  rw [decodeCommand_lookup _ hop, Option.ite_none_right_eq_some] at h
  obtain ⟨⟨hidx, hb⟩, ⟨⟩⟩ := h
  exact ⟨rfl, congrArg (· :: []) (commandWord_eq hop hidx hb rfl)⟩

theorem encodesTo_of_setdigit (hop : wordOp w = 2) (h : decodeCommand w [] = some i) : EncodesTo w [] i := by
  rw [decodeCommand_setdigit _ hop, Option.ite_none_right_eq_some] at h
  obtain ⟨hb, ⟨⟩⟩ := h
  refine ⟨fitsIdx_toNat _, congrArg (· :: []) (commandWord_eq hop ?_ hb rfl)⟩
  rw [BitVec.ofNat_toNat, BitVec.setWidth_eq]

theorem encodesTo_of_setseg (hop : wordOp w = 3) (h : decodeCommand w [] = some i) : EncodesTo w [] i := by
  rw [decodeCommand_setseg _ hop, Option.ite_none_right_eq_some] at h
  obtain ⟨hc, ⟨⟩⟩ := h
  refine ⟨Bool.and_eq_true_iff.mpr ⟨fitsIdx_toNat _, fitsB_toNat _⟩,
    congrArg (· :: []) (commandWord_eq hop ?_ ?_ hc)⟩
  · rw [BitVec.ofNat_toNat, BitVec.setWidth_eq]
  · rw [BitVec.ofNat_toNat, BitVec.setWidth_eq]

theorem encodesTo_of_setcomma (hop : wordOp w = 4) (h : decodeCommand w [] = some i) : EncodesTo w [] i := by
  rw [decodeCommand_setcomma _ hop, Option.ite_none_right_eq_some] at h
  obtain ⟨⟨hb, hc⟩, ⟨⟩⟩ := h
  refine ⟨fitsIdx_toNat _, congrArg (· :: []) (commandWord_eq hop ?_ hb hc)⟩
  rw [BitVec.ofNat_toNat, BitVec.setWidth_eq]

theorem encodesTo_of_refresh (hop : wordOp w = 6) (h : decodeCommand w [] = some i) : EncodesTo w [] i := by
  rw [decodeCommand_refresh _ hop, Option.ite_none_right_eq_some] at h
  obtain ⟨⟨hidx, hb, hc⟩, ⟨⟩⟩ := h
  exact ⟨rfl, congrArg (· :: []) (commandWord_eq hop hidx hb hc)⟩

variable {ps : List Word}

/-- The characters before zero padding, packed again, are the payload. -/
theorem packText_take_payloadBytes (hlen : ps.length = ((wordLen w).toNat + 3) / 4) (hpad : paddingIsZero w ps) :
    packText ((payloadBytes ps).take (wordLen w).toNat) = ps := by
  have htake : ((payloadBytes ps).take (wordLen w).toNat).length = (wordLen w).toNat := by
    rw [List.length_take, length_payloadBytes]; omega
  apply payloadBytes_injective
  rw [payloadBytes_packText, htake, padding, ← hlen, ← hpad, List.take_append_drop]

theorem encodesTo_of_setstr (hop : wordOp w = 5) (hlen : ps.length = ((wordLen w).toNat + 3) / 4)
    (h : decodeCommand w ps = some i) : EncodesTo w ps i := by
  rw [decodeCommand_setstr _ hop, Option.ite_none_right_eq_some] at h
  obtain ⟨⟨hidx, hpad⟩, ⟨⟩⟩ := h
  have htake : ((payloadBytes ps).take (wordLen w).toNat).length = (wordLen w).toNat := by
    rw [List.length_take, length_payloadBytes]; omega
  have hfits := (wordLen w).isLt
  refine ⟨?_, congrArg₂ List.cons (commandWord_eq hop hidx ?_ ?_) (packText_take_payloadBytes hlen hpad)⟩
  · simpa [Instr.wellFormed, fitsLen, htake] using hfits
  · rw [htake, ← BitVec.toNat_inj, wordLen_eq, BitVec.toNat_ofNat]; omega
  · rw [htake, ← BitVec.toNat_inj, wordLen_eq, BitVec.toNat_ofNat]; omega

/-- CONFIG's payload is its two durations and then its two lists (R140). -/
theorem config_payload_eq {n k : Nat} (hlen : ps.length = 2 + n + k) :
    ps = ps.getD 0 0 :: ps.getD 1 0 :: ((ps.drop 2).take n ++ (ps.drop (2 + n)).take k) := by
  match ps, hlen with
  | on :: dly :: lists, hlen =>
    have hlists : (lists.drop n).length ≤ k := by
      rw [List.length_drop]; simp only [List.length_cons] at hlen; omega
    have hdrop : (on :: dly :: lists).drop (2 + n) = lists.drop n := by
      rw [Nat.add_comm]; rfl
    rw [hdrop, List.take_of_length_le hlists]
    exact congrArg (on :: dly :: ·) (List.take_append_drop n lists).symm
  | [_], hlen => simp at hlen; omega
  | [], hlen => simp at hlen; omega

theorem map_ofNat_map_toNat (ws : List Word) : (ws.map BitVec.toNat).map (BitVec.ofNat 32) = ws := by
  simp [List.map_map, Function.comp_def]

theorem encodesTo_of_config (hop : wordOp w = 7) (hlen : ps.length = 2 + (wordIdx w).toNat + (wordB w).toNat)
    (h : decodeCommand w ps = some i) : EncodesTo w ps i := by
  rw [decodeCommand_config _ hop, Option.ite_none_right_eq_some] at h
  obtain ⟨hpol, ⟨⟩⟩ := h
  have hdigs : (((ps.drop 2).take (wordIdx w).toNat).map BitVec.toNat).length = (wordIdx w).toNat := by
    simp only [List.length_map, List.length_take, List.length_drop]; omega
  have hsegs : (((ps.drop (2 + (wordIdx w).toNat)).take (wordB w).toNat).map BitVec.toNat).length =
      (wordB w).toNat := by
    simp only [List.length_map, List.length_take, List.length_drop]; omega
  constructor
  · simp only [Instr.wellFormed, hdigs, hsegs, fitsSigned_toInt, fitsIdx_toNat, fitsB_toNat, all_fitsWord_map_toNat,
      Bool.and_self]
  · rw [encode, hdigs, hsegs, map_ofNat_map_toNat, map_ofNat_map_toNat, BitVec.ofInt_toInt, BitVec.ofInt_toInt,
      ← config_payload_eq hlen, ← extractLsb'_0_2_wordC]
    refine congrArg (· :: ps) (commandWord_eq hop ?_ ?_ ?_)
    · rw [BitVec.ofNat_toNat, BitVec.setWidth_eq]
    · rw [BitVec.ofNat_toNat, BitVec.setWidth_eq]
    · rw [setWidth_extractLsb'_0_2 (by rw [extractLsb'_2_6_wordC, hpol])]

theorem encodesTo_of_decodeCommand (hlen : ps.length = payloadLength w) (h : decodeCommand w ps = some i) :
    EncodesTo w ps i := by
  rw [payloadLength_eq] at hlen
  have oneWord (h5 : wordOp w ≠ 5) (h7 : wordOp w ≠ 7) : ps = [] := by
    rwa [if_neg h5, if_neg h7, List.length_eq_zero_iff] at hlen
  rcases wordOp_cases w with hop | hop | hop | hop | hop | hop | hop | hop
  · rw [decodeCommand_reserved _ hop] at h; cases h
  · obtain rfl := oneWord (by simp [hop]) (by simp [hop]); exact encodesTo_of_lookup hop h
  · obtain rfl := oneWord (by simp [hop]) (by simp [hop]); exact encodesTo_of_setdigit hop h
  · obtain rfl := oneWord (by simp [hop]) (by simp [hop]); exact encodesTo_of_setseg hop h
  · obtain rfl := oneWord (by simp [hop]) (by simp [hop]); exact encodesTo_of_setcomma hop h
  · exact encodesTo_of_setstr hop (by rwa [if_pos hop] at hlen) h
  · obtain rfl := oneWord (by simp [hop]) (by simp [hop]); exact encodesTo_of_refresh hop h
  · exact encodesTo_of_config hop (by rwa [if_neg (by simp [hop]), if_pos hop] at hlen) h
end

/-- Settles O4: by the row of R132, the words are the encoding of what `decodeCommand` reads from them. -/
theorem encodeDecodeAgree : Obligations.EncodeDecodeAgree := by
  unfold Obligations.EncodeDecodeAgree
  intro ws rest i h
  cases ws with
  | nil => cases h
  | cons w ws =>
    obtain ⟨hlen, hcommand, rfl⟩ := (decode_command_iff w ws rest i).mp h
    obtain ⟨hwf, hencode⟩ := encodesTo_of_decodeCommand (List.length_take_of_le hlen) hcommand
    exact ⟨hwf, by rw [hencode, List.cons_append, List.take_append_drop]⟩

/-- The decoder gives only well-formed commands. -/
theorem wellFormed_of_decode {ws rest : List Word} {i : Instr} (h : decode ws = .command i rest) :
    i.wellFormed = true := by
  obtain ⟨hwf, -⟩ := encodeDecodeAgree ws rest i h
  exact hwf

/-! ### Which commands are illegal (R143) -/

theorem drop_eq_replicate_zero_iff (bytes : List Byte) (n : Nat) :
    bytes.drop n = List.replicate (bytes.length - n) 0 ↔ ∀ j, n ≤ j → j < bytes.length → bytes.getD j 0 = 0 := by
  simp only [List.eq_replicate_iff, List.length_drop, true_and]
  constructor
  · intro h j hn hj
    rw [List.getD_eq_getElem _ _ hj]
    exact h _ (List.mem_drop_iff_getElem.mpr ⟨j - n, by omega, by simp only [Nat.add_sub_cancel' hn]⟩)
  · intro h b hb
    obtain ⟨k, hk, rfl⟩ := List.mem_drop_iff_getElem.mp hb
    have hj : n + k < bytes.length := by omega
    rw [← List.getD_eq_getElem bytes 0 hj]
    exact h _ (Nat.le_add_right ..) hj

/-- Some padding byte is not zero: byte `j mod 4` of word `j div 4` for some `j` past the text. -/
theorem not_paddingIsZero_iff {w : Word} {ws : List Word} {k : Nat} (hk : k ≤ ws.length) :
    ¬ paddingIsZero w (ws.take k) ↔ ∃ j, (wordLen w).toNat ≤ j ∧ j < 4 * k ∧
      (ws.getD (j / 4) 0).extractLsb' (8 * (j % 4)) 8 ≠ 0 := by
  have hlen : (payloadBytes (ws.take k)).length = 4 * k := by
    rw [length_payloadBytes, List.length_take_of_le hk]
  have hword {j : Nat} (hj : j < 4 * k) : (ws.take k).getD (j / 4) 0 = ws.getD (j / 4) 0 := by
    rw [List.getD_eq_getElem?_getD, List.getElem?_take_of_lt (by omega), ← List.getD_eq_getElem?_getD]
  rw [paddingIsZero, ← length_payloadBytes, drop_eq_replicate_zero_iff, hlen]
  simp only [getD_payloadBytes, not_forall]
  constructor
  · rintro ⟨j, hn, hj, h⟩
    exact ⟨j, hn, hj, by rwa [← hword hj]⟩
  · rintro ⟨j, hn, hj, h⟩
    exact ⟨j, hn, hj, by rwa [hword hj]⟩

theorem exists_decode_illegal_iff {w : Word} {ws : List Word} (hlen : payloadLength w ≤ ws.length) :
    (∃ op rest, decode (w :: ws) = .illegal op rest) ↔ decodeCommand w (ws.take (payloadLength w)) = none := by
  simp [decode_illegal_iff, hlen]

/-- Settles O5: by the row of R132, each command's equation says when there is no command. -/
theorem illegalExactlyWhenReserved : Obligations.IllegalExactlyWhenReserved := by
  unfold Obligations.IllegalExactlyWhenReserved
  intro w ws hlen
  refine ⟨?_, fun op rest h => ?_⟩
  · rw [exists_decode_illegal_iff hlen]
    rcases wordOp_cases w with hop | hop | hop | hop | hop | hop | hop | hop
    · simp only [decodeCommand_reserved _ hop, true_iff]
      exact hop.imp_right .inl
    · simp [decodeCommand_lookup _ hop, hop, imp_iff_not_or]
    · simp [decodeCommand_setdigit _ hop, hop]
    · simp [decodeCommand_setseg _ hop, hop]
    · simp [decodeCommand_setcomma _ hop, hop, imp_iff_not_or]
    · rw [decodeCommand_setstr _ hop, ite_eq_right_iff, ← not_paddingIsZero_iff hlen]
      simp [hop, imp_iff_not_or]
    · simp [decodeCommand_refresh _ hop, hop, imp_iff_not_or]
    · simp [decodeCommand_config _ hop, hop, extractLsb'_2_6_wordC]
  · obtain ⟨-, -, hrest⟩ := (decode_illegal_iff w ws rest op).mp h
    exact hrest

end Sys2Proof
end

section
/-! Proofs: the spec's example words, the literals of the ROM and the response word (spec/30_encoding.md). -/
namespace Sys2Proof.Machine

/-- Settles O1: each example is a closed term of the decoder. -/
theorem exampleWordsDecode : Obligations.ExampleWordsDecode := by
  unfold Obligations.ExampleWordsDecode
  decide

/-! ### Literals (R101) -/

/-- `1#8 <<< g` is bit `g` alone (R101). -/
theorem getLsbD_one_shiftLeft (g : Nat) {b : Nat} (hb : b < 8) : (1#8 <<< g).getLsbD b = decide (b = g) := by
  rw [Bool.eq_iff_iff]
  simp only [BitVec.getLsbD_shiftLeft, BitVec.getLsbD_one, hb, decide_true, Bool.true_and, Bool.and_eq_true,
    Bool.not_eq_true', decide_eq_false_iff_not, decide_eq_true_eq]
  omega

/-- The mask after the literal's digits for the segments below `n`. -/
theorem getLsbD_foldl_literal (a : BitVec 8) (n s : Nat) (hs : s < 8) :
    ((List.range n).foldl (fun m s => if a.getLsbD (7 - s) then m ||| (1#8 <<< s) else m) 0#8).getLsbD s =
      (decide (s < n) && a.getLsbD (7 - s)) := by
  induction n with
  | zero => simp
  | succ n ih =>
    rw [List.range_succ, List.foldl_append, List.foldl_cons, List.foldl_nil]
    by_cases hn : s = n
    · subst hn
      by_cases ha : a.getLsbD (7 - s) = true <;> simp_all
    · have hlt : s < n + 1 ↔ s < n := by omega
      split
      · rw [BitVec.getLsbD_or, ih, getLsbD_one_shiftLeft n hs]; simp [hn, hlt]
      · rw [ih]; simp [hlt]

/-- Settles O8: segment `s`'s digit is the only one of the literal that sets bit `s`. -/
theorem literalBitsAreSegments : Obligations.LiteralBitsAreSegments := by
  unfold Obligations.LiteralBitsAreSegments
  intro a s hs
  rw [maskOfLiteral, getLsbD_foldl_literal a 8 s hs, decide_eq_true hs, Bool.true_and]

/-! ### The response word (R150) -/

section
variable (r : Response)

theorem Response.word_value : r.word.extractLsb' 16 16 = r.value := by
  apply BitVec.eq_of_getLsbD_eq
  intro i hi
  interval_cases i <;> simp [Response.word, BitVec.getLsbD_of_ge]

theorem Response.word_data : r.word.extractLsb' 8 8 = r.data := by
  apply BitVec.eq_of_getLsbD_eq
  intro i hi
  interval_cases i <;> simp [Response.word, BitVec.getLsbD_of_ge]

theorem Response.word_zero : r.word.extractLsb' 4 4 = 0 := by
  apply BitVec.eq_of_getLsbD_eq
  intro i hi
  interval_cases i <;> simp [Response.word, BitVec.getLsbD_of_ge]

theorem Response.word_status : r.word.extractLsb' 0 4 = r.status.code := by
  apply BitVec.eq_of_getLsbD_eq
  intro i hi
  interval_cases i <;> simp [Response.word]
end

/-- Settles O10: each field is found in its place, and the codes of R310 are the table of `Status.code`. -/
theorem responseWordFields : Obligations.ResponseWordFields := by
  unfold Obligations.ResponseWordFields
  exact ⟨fun r => ⟨r.word_value, r.word_data, r.word_zero, r.word_status⟩, rfl⟩

end Sys2Proof.Machine
end

section
/-! Proofs: the step and the agent that moves (spec/20_memory.md section 7). -/
namespace Sys2Proof.Machine

/-- Settles O11: R54's values are those of `State.reset`. -/
theorem powerUpState : Obligations.PowerUpState := by
  unfold Obligations.PowerUpState
  exact ⟨rfl, rfl, State.reset_lvl_read, rfl, rfl⟩

/-! ### One equation per kind of step -/

section
variable {s : State}

theorem step_of_task (hpass : s.beginTurn.pass = .idle) (htask : s.beginTurn.task ≠ .none) :
    step s = .next (resumeTask s.beginTurn) := by
  cases h : s.beginTurn.task with
  | none => exact absurd h htask
  | segWrite i g v => simp only [step, hpass, h]
  | render d chars dots => simp only [step, hpass, h]
  | dotRead dots => simp only [step, hpass, h]
  | dotWrite d v dots => simp only [step, hpass, h]

theorem step_of_incomplete (hpass : s.beginTurn.pass = .idle) (htask : s.beginTurn.task = .none)
    (h : decode s.beginTurn.pending = .incomplete) : step s = .next s.beginTurn := by
  simp only [step, hpass, htask, h]

theorem step_of_command {i : Instr} {rest : List Word} (hpass : s.beginTurn.pass = .idle)
    (htask : s.beginTurn.task = .none) (h : decode s.beginTurn.pending = .command i rest) :
    step s = exec i (s.beginTurn.setPending rest) := by
  simp only [step, hpass, htask, h]
end

/-- Settles O12: the two equations of a step that runs a command or goes on with one. -/
theorem stepRunsDecodedCommand : Obligations.StepRunsDecodedCommand := by
  unfold Obligations.StepRunsDecodedCommand
  exact ⟨fun _ _ _ => step_of_command, fun _ => step_of_task⟩

/-- Settles O14: the equation of a step with no whole command at the port. -/
theorem stepWaitsForCommand : Obligations.StepWaitsForCommand := by
  unfold Obligations.StepWaitsForCommand
  exact fun _ => step_of_incomplete

/-! ### Whose turn it is (R80) -/

section
variable {s : State}

theorem State.beginTurn_of_writer {agents : List Agent} (hasync : s.config.asyncWriter = true)
    (hsched : s.sched = .writer :: agents) : s.beginTurn = { s with turn := .writer, sched := agents } := by
  simp only [State.beginTurn, hsched, hasync, if_true]

theorem State.beginTurn_of_caller (h : s.config.asyncWriter = false ∨ s.sched.head? ≠ some .writer) :
    s.beginTurn = { s with turn := .caller, sched := s.sched.tail } := by
  unfold State.beginTurn
  split
  · simp [*]
  · rename_i agent rest hsched
    cases agent <;> simp_all

theorem State.task_of_caller (h : s.turn = .caller) : s.task = s.callerTask := by simp only [State.task, h]

theorem State.otherTask_of_caller (h : s.turn = .caller) : s.otherTask = s.writerTask := by
  simp only [State.otherTask, h]

theorem State.otherTask_of_writer (h : s.turn = .writer) : s.otherTask = s.callerTask := by
  simp only [State.otherTask, h]
end

/-- Settles O60: `beginTurn` gives the turn to the agent that the schedule names, and that agent's step has an equation
for each thing it may have in progress. -/
theorem scheduledAgentMoves : Obligations.ScheduledAgentMoves := by
  unfold Obligations.ScheduledAgentMoves
  refine ⟨fun s agents hasync hsched => ?writer, fun s hcaller => ?caller⟩
  case writer =>
    intro u
    have hu : s.beginTurn = u := State.beginTurn_of_writer hasync hsched
    have hpass : s.beginTurn.pass = .idle := by rw [hu]; rfl
    refine ⟨fun htask => ?_, fun i rest htask hdecode => ?_⟩
    · rw [step_of_task hpass (by rw [hu]; exact htask), hu]
    · rw [step_of_command hpass (by rw [hu]; exact htask) (by rw [hu]; exact hdecode), hu]
      rfl
  case caller =>
    intro u
    have hu : s.beginTurn = u := State.beginTurn_of_caller hcaller
    have hpass : s.beginTurn.pass = s.fsm := by rw [hu]; rfl
    refine ⟨fun d p hbusy => ?_, fun hidle htask => ?_, fun i rest hidle htask hdecode => ?_⟩
    · rw [step_of_pass_busy (hpass.trans hbusy), hu]
    · rw [step_of_task (hpass.trans hidle) (by rw [hu]; exact htask), hu]
    · rw [step_of_command (hpass.trans hidle) (by rw [hu]; exact htask) (by rw [hu]; exact hdecode), hu]
      rfl

/-! ### What a step does, up to the ports and the turn -/

/-- `u` differs from `s` at most in whose turn it is, the schedule and the ports: what happens before a command runs. -/
structure PortsFrame (s u : State) : Prop where
  config : u.config = s.config
  life : u.life = s.life
  claimed : u.claimed = s.claimed
  lvl : u.lvl = s.lvl
  fsm : u.fsm = s.fsm
  trace : u.trace = s.trace
  callerTask : u.callerTask = s.callerTask
  writerTask : u.writerTask = s.writerTask
  turn : u.turn = s.beginTurn.turn
  writerPort : u.turn = .caller → u.writerPort = s.writerPort

theorem State.beginTurn_portsFrame (s : State) : PortsFrame s s.beginTurn := by constructor <;> simp

theorem State.beginTurn_setPending_portsFrame (s : State) (ws : List Word) :
    PortsFrame s (s.beginTurn.setPending ws) := by
  constructor <;> simp +contextual

@[simp] theorem State.setPending_pass (s : State) (ws : List Word) : (s.setPending ws).pass = s.pass := by
  simp [State.pass]

/-- The decoder lets only well-formed commands through, so a step is one of five things done by the agent in turn. -/
theorem step_moves {s t : State} (h : step s = .next t) : ∃ u, PortsFrame s u ∧
    ((∃ d p, u.pass = .busy d p ∧ runPhase d p u = .next t) ∨
      (u.pass = .idle ∧ u.task ≠ .none ∧ t = resumeTask u) ∨
      (u.pass = .idle ∧ u.task = .none ∧ t = u) ∨
      (u.pass = .idle ∧ u.task = .none ∧ ∃ e v, t = u.raise e v) ∨
      (u.pass = .idle ∧ u.task = .none ∧ ∃ i, i.wellFormed = true ∧ exec i u = .next t)) := by
  obtain hphase | hresume | ⟨hpass, htask, ⟨-, hwait⟩ | ⟨op, rest, -, hillegal⟩ | ⟨i, rest, hdecode, hexec⟩⟩ :=
    step_cases h
  · exact ⟨_, s.beginTurn_portsFrame, .inl hphase⟩
  · exact ⟨_, s.beginTurn_portsFrame, .inr (.inl hresume)⟩
  · exact ⟨_, s.beginTurn_portsFrame, .inr (.inr (.inl ⟨hpass, htask, hwait⟩))⟩
  · exact ⟨_, s.beginTurn_setPending_portsFrame rest,
      .inr (.inr (.inr (.inl ⟨by simpa using hpass, by simpa using htask, _, _, hillegal⟩)))⟩
  · exact ⟨_, s.beginTurn_setPending_portsFrame rest,
      .inr (.inr (.inr (.inr ⟨by simpa using hpass, by simpa using htask, i,
        wellFormed_of_decode hdecode, hexec⟩)))⟩

/-- The same, up to what a buffer command may change: a step is a phase, changes at most the buffer, starts a pass, or
constructs the block. -/
theorem step_effects {s t : State} (h : step s = .next t) : ∃ u, PortsFrame s u ∧
    ((∃ d p, u.pass = .busy d p ∧ runPhase d p u = .next t) ∨
      (u.pass = .idle ∧ BufferFrame u t) ∨
      (u.pass = .idle ∧ u.turn = .caller ∧ t = { u with fsm := .busy 0 .digOn }) ∨
      (u.life = .unconstructed ∧ u.turn = .caller ∧ ∃ cfg, t = (u.construct cfg).answer 0)) := by
  obtain ⟨u, hu, hmove⟩ := step_moves h
  refine ⟨u, hu, ?_⟩
  obtain hphase | ⟨hpass, -, rfl⟩ | ⟨hpass, -, rfl⟩ | ⟨hpass, -, e, v, rfl⟩ | ⟨hpass, -, i, -, hexec⟩ := hmove
  · exact .inl hphase
  · exact .inr (.inl ⟨hpass, resumeTask_frame u⟩)
  · exact .inr (.inl ⟨hpass, BufferFrame.refl t⟩)
  · exact .inr (.inl ⟨hpass, u.raise_frame e v⟩)
  · obtain hframe | ⟨-, hturn, -, -, -, rfl⟩ | ⟨pol, on, dly, digs, segs, -, hturn, hlife, -, -, rfl⟩ :=
      exec_cases hexec
    · exact .inr (.inl ⟨hpass, hframe⟩)
    · exact .inr (.inr (.inl ⟨hpass, hturn, rfl⟩))
    · exact .inr (.inr (.inr ⟨hlife, hturn, _, rfl⟩))

/-- Settles O16: with no writer the turn is the caller's, and no kind of step writes what is the writer's. -/
theorem noWriterNoWriterStep : Obligations.NoWriterNoWriterStep := by
  unfold Obligations.NoWriterNoWriterStep
  intro s t hasync h
  obtain ⟨u, hu, hstep⟩ := step_effects h
  have hturn : u.turn = .caller := hu.turn.trans (s.beginTurn_caller hasync)
  rw [← hu.writerPort hturn, ← hu.writerTask, ← hturn]
  obtain ⟨d, p, -, hphase⟩ | ⟨-, hframe⟩ | ⟨-, -, rfl⟩ | ⟨-, -, cfg, rfl⟩ := hstep
  · obtain ⟨cfg, buf, l, -, -, rfl⟩ := runPhase_cases hphase
    simp
  · refine ⟨hframe.turn, hframe.writerPort, ?_⟩
    rw [← State.otherTask_of_caller hturn, ← hframe.otherTask, State.otherTask_of_caller (hframe.turn.trans hturn)]
  · exact ⟨rfl, rfl, rfl⟩
  · rw [State.construct_answer]
    exact ⟨rfl, rfl, rfl⟩

/-! ### What every step keeps (R12, R30, R31, R42) -/

theorem State.cfg?_eq_some_iff {s : State} {cfg : Cfg} :
    s.cfg? = some cfg ↔ ∃ buf, s.life = .constructed cfg buf := by
  unfold State.cfg?
  split <;> simp [*]

theorem State.cfg?_eq_none_iff {s : State} : s.cfg? = none ↔ s.life = .unconstructed := by
  unfold State.cfg?
  split <;> simp [*]

theorem State.buf_of_constructed {s : State} {cfg : Cfg} {buf : List Byte} (h : s.life = .constructed cfg buf) :
    s.buf = buf := by
  simp only [State.buf, h]

/-- A buffer command keeps the block constructed, with its configuration and the buffer's length. -/
theorem BufferFrame.constructed {s t : State} {cfg : Cfg} {buf : List Byte} (h : BufferFrame s t)
    (hlife : s.life = .constructed cfg buf) : ∃ buf', t.life = .constructed cfg buf' ∧ buf'.length = buf.length := by
  obtain ⟨buf', hlife'⟩ := State.cfg?_eq_some_iff.mp (h.cfg.trans (State.cfg?_eq_some_iff.mpr ⟨buf, hlife⟩))
  refine ⟨buf', hlife', ?_⟩
  rw [← State.buf_of_constructed hlife, ← State.buf_of_constructed hlife', h.length]

/-- Settles O55: a phase and the start of a pass keep the life, and a constructed block is not constructed again. -/
theorem configurationIsImmutable : Obligations.ConfigurationIsImmutable := by
  unfold Obligations.ConfigurationIsImmutable
  intro s t cfg buf hlife h
  obtain ⟨u, hu, hstep⟩ := step_effects h
  rw [← hu.life] at hlife
  obtain ⟨d, p, -, hphase⟩ | ⟨-, hframe⟩ | ⟨-, -, rfl⟩ | ⟨hunconstructed, -, cfg, rfl⟩ := hstep
  · obtain ⟨-, -, l, -, -, rfl⟩ := runPhase_cases hphase
    exact ⟨buf, by simpa using hlife, rfl⟩
  · exact hframe.constructed hlife
  · exact ⟨buf, hlife, rfl⟩
  · rw [hlife] at hunconstructed; cases hunconstructed

/-- A phase claims no line (R272). -/
@[simp] theorem phaseCall_claims (cfg : Cfg) (l : Nat) (m : Byte) (p : Phase) (c : LineSet) :
    (phaseCall cfg l m p).claims c = c := by
  cases p <;> simp [phaseCall]

/-- The lines claimed after a successful CONFIG (R42, R180). -/
theorem mem_construct_claimed (s : State) (cfg : Cfg) (l : Nat) :
    l ∈ ((s.construct cfg).answer 0).claimed ↔ l ∈ cfg.lines ∨ l ∈ s.claimed := by
  rw [State.construct_answer, claims_configCalls, LineSet.mem_foldl_insert]

/-- Settles O56: only CONFIG claims lines, it gives up none, and nothing writes the parameters. -/
theorem claimsAndParametersStay : Obligations.ClaimsAndParametersStay := by
  unfold Obligations.ClaimsAndParametersStay
  intro s t h
  obtain ⟨u, hu, hstep⟩ := step_effects h
  rw [← hu.claimed, ← hu.config]
  obtain ⟨d, p, -, hphase⟩ | ⟨-, hframe⟩ | ⟨-, -, rfl⟩ | ⟨-, -, cfg, rfl⟩ := hstep
  · obtain ⟨cfg, buf, l, -, -, rfl⟩ := runPhase_cases hphase
    simp
  · exact ⟨fun l hl => hframe.claimed ▸ hl, hframe.config⟩
  · exact ⟨fun l hl => hl, rfl⟩
  · exact ⟨fun l hl => (mem_construct_claimed u cfg l).mpr (.inr hl), by rw [State.construct_answer]⟩

/-- Settles O57: with no writer the step is the caller's, so it is the phase, which keeps the life. -/
theorem noTornFrameWithoutWriter : Obligations.NoTornFrameWithoutWriter := by
  unfold Obligations.NoTornFrameWithoutWriter
  intro s t d p hasync hfsm h
  have hpass : s.beginTurn.pass = .busy d p := by
    rw [State.pass_of_caller (s.beginTurn_caller hasync), State.beginTurn_fsm, hfsm]
  rw [step_of_pass_busy hpass] at h
  obtain ⟨cfg, buf, l, -, -, rfl⟩ := runPhase_cases h
  simp

/-! ### The frame of a buffer command (R40, R211) -/

/-- A buffer command is neither REFRESH nor CONFIG, so `exec_cases` leaves the frame. -/
theorem exec_buffer_frame {i : Instr} {s t : State} (hi : bufferCommand i = true) (h : exec i s = .next t) :
    BufferFrame s t := by
  obtain hframe | ⟨rfl, -⟩ | ⟨pol, on, dly, digs, segs, rfl, -⟩ := exec_cases h
  · exact hframe
  · cases hi
  · cases hi

/-- Settles O47: the frame of the commands and the frame of their atomic steps. -/
theorem bufferCommandsFrame : Obligations.BufferCommandsFrame := by
  unfold Obligations.BufferCommandsFrame
  exact ⟨fun i s t => exec_buffer_frame, resumeTask_frame⟩

end Sys2Proof.Machine
end

section
/-! Proofs: the lines of a pass and the display rule (spec/44_refresh.md section 3). -/
namespace Sys2Proof.Machine

/-! ### What each phase does to the lines (R271, R272) -/

section
variable (cfg : Cfg) (l : Nat) (m : Byte) (mem : Memory) (k : Nat)

theorem read_phaseCall_digOn : ((phaseCall cfg l m .digOn).levels mem).read k =
    if k = l then cfg.pol.digitActive else mem.read k := by
  obtain ⟨hactive, -⟩ := cfg.pol.levels_ne
  simp [phaseCall, drive_levels _ hactive]

theorem read_phaseCall_segOn : ((phaseCall cfg l m .segOn).levels mem).read k =
    if k ∈ cfg.litSegs m then cfg.pol.segActive else mem.read k := by
  obtain ⟨-, -, hactive, -⟩ := cfg.pol.levels_ne
  simp [phaseCall, drive_levels _ hactive]

theorem read_phaseCall_holdOn : ((phaseCall cfg l m .holdOn).levels mem).read k = mem.read k := rfl

theorem read_phaseCall_segOff : ((phaseCall cfg l m .segOff).levels mem).read k =
    if k ∈ cfg.seg then cfg.pol.segInactive else mem.read k := by
  obtain ⟨-, -, -, hinactive, -⟩ := cfg.pol.levels_ne
  simp [phaseCall, drive_levels _ hinactive]

theorem read_phaseCall_digOff : ((phaseCall cfg l m .digOff).levels mem).read k =
    if k = l then cfg.pol.digitInactive else mem.read k := by
  obtain ⟨-, hinactive, -⟩ := cfg.pol.levels_ne
  simp [phaseCall, drive_levels _ hinactive]

theorem read_phaseCall_holdDly : ((phaseCall cfg l m .holdDly).levels mem).read k = mem.read k := rfl

variable {cfg l k}

/-- The lit lines are segment lines (R277). -/
theorem Cfg.seg_of_mem_litSegs {m : Byte} (h : k ∈ cfg.litSegs m) : k ∈ cfg.seg := by
  obtain ⟨g, hg, -⟩ := (cfg.mem_litSegs m k).mp h
  exact List.mem_of_getElem? hg

/-- A phase leaves alone every line that is neither its digit's nor a segment's. -/
theorem read_phaseCall_of_ne (p : Phase) (hkl : k ≠ l) (hk : k ∉ cfg.seg) :
    ((phaseCall cfg l m p).levels mem).read k = mem.read k := by
  cases p
  case digOn => rw [read_phaseCall_digOn, if_neg hkl]
  case segOn => rw [read_phaseCall_segOn, if_neg (mt Cfg.seg_of_mem_litSegs hk)]
  case holdOn => rfl
  case segOff => rw [read_phaseCall_segOff, if_neg hk]
  case digOff => rw [read_phaseCall_digOff, if_neg hkl]
  case holdDly => rfl
end

/-- Settles O49: a phase emits one call and moves the state machine on, and its call drives only lines of the
configuration. -/
theorem phasesFrame : Obligations.PhasesFrame := by
  unfold Obligations.PhasesFrame
  intro d p s t h
  obtain ⟨cfg, buf, l, hlife, hl, rfl⟩ := runPhase_cases h
  refine ⟨State.advance_life _ _, (State.advance_claimed _ _).trans (phaseCall_claims ..), State.advance_config _ _,
    State.advance_callerTask _ _, State.advance_writerTask _ _, State.advance_callerPort _ _,
    State.advance_writerPort _ _, State.advance_turn _ _, State.advance_sched _ _, fun cfg' buf' hlife' k hk => ?_⟩
  obtain ⟨rfl, rfl⟩ := Life.constructed.inj (hlife.symm.trans hlife')
  rw [Cfg.lines, List.mem_append, not_or] at hk
  obtain ⟨hdig, hseg⟩ := hk
  rw [State.advance_lvl, State.emit_lvl]
  exact read_phaseCall_of_ne _ _ p (fun hkl => hdig (hkl ▸ List.mem_of_getElem? hl)) hseg

/-! ### The rule for the digit lines and the rule for the segment lines (R281, R282) -/

/-- The digit lines are where the state machine says (R281). -/
def DigitsFollow (cfg : Cfg) (fsm : Fsm) (mem : Memory) : Prop :=
  ∀ d l, cfg.dig[d]? = some l → mem.read l = if fsm.selects d then cfg.pol.digitActive else cfg.pol.digitInactive

/-- The segment lines show the mask `m` (R282). -/
def SegsShow (cfg : Cfg) (mem : Memory) (m : Byte) : Prop :=
  ∀ g k, cfg.seg[g]? = some k → mem.read k = if m.getLsbD g then cfg.pol.segActive else cfg.pol.segInactive

theorem linesFollowPass_iff {cfg : Cfg} {fsm : Fsm} {mem : Memory} :
    LinesFollowPass cfg fsm mem ↔
      DigitsFollow cfg fsm mem ∧ ∃ m : Byte, (fsm.showsSegments = false → m = 0) ∧ SegsShow cfg mem m := Iff.rfl

/-- The rule asks of the state machine only which digit it selects and whether segments may show. -/
theorem LinesFollowPass.congr {cfg : Cfg} {f f' : Fsm} {mem : Memory} (h : LinesFollowPass cfg f mem)
    (hselects : ∀ d, f'.selects d = f.selects d) (hshows : f'.showsSegments = f.showsSegments) :
    LinesFollowPass cfg f' mem := by
  simpa only [LinesFollowPass, hselects, hshows] using h

/-! Which digit is selected and whether segments may show, before and after each phase (R273, R281, R282). -/

section
variable (n d e : Nat)

@[simp] theorem nextFsm_digOn : nextFsm n d .digOn = .busy d .segOn := rfl
@[simp] theorem nextFsm_segOn : nextFsm n d .segOn = .busy d .holdOn := rfl
@[simp] theorem nextFsm_holdOn : nextFsm n d .holdOn = .busy d .segOff := rfl
@[simp] theorem nextFsm_segOff : nextFsm n d .segOff = .busy d .digOff := rfl
@[simp] theorem nextFsm_digOff : nextFsm n d .digOff = .busy d .holdDly := rfl
theorem nextFsm_holdDly : nextFsm n d .holdDly = if d + 1 < n then .busy (d + 1) .digOn else .idle := rfl

@[simp] theorem Fsm.selects_idle : Fsm.idle.selects e = false := rfl
@[simp] theorem Fsm.selects_digOn : (Fsm.busy d .digOn).selects e = false := Bool.and_false _
@[simp] theorem Fsm.selects_segOn : (Fsm.busy d .segOn).selects e = decide (d = e) := Bool.and_true _
@[simp] theorem Fsm.selects_holdOn : (Fsm.busy d .holdOn).selects e = decide (d = e) := Bool.and_true _
@[simp] theorem Fsm.selects_segOff : (Fsm.busy d .segOff).selects e = decide (d = e) := Bool.and_true _
@[simp] theorem Fsm.selects_digOff : (Fsm.busy d .digOff).selects e = decide (d = e) := Bool.and_true _
@[simp] theorem Fsm.selects_holdDly : (Fsm.busy d .holdDly).selects e = false := Bool.and_false _

/-- After the last phase of a digit no digit is selected. -/
@[simp] theorem selects_nextFsm_holdDly : (nextFsm n d .holdDly).selects e = false := by
  rw [nextFsm_holdDly]; split <;> simp
end

section
variable {cfg : Cfg} {mem : Memory} {l : Nat}

/-- IDLE: the rule is the idle invariant (R280). -/
theorem linesFollowPass_idle_iff : LinesFollowPass cfg .idle mem ↔ Quiet cfg mem := by
  constructor
  · rintro ⟨hdig, m, hm, hseg⟩
    obtain rfl := hm rfl
    refine ⟨fun l hl => ?_, fun k hk => ?_⟩
    · obtain ⟨d, hd⟩ := List.mem_iff_getElem?.mp hl
      simpa using hdig d l hd
    · obtain ⟨g, hg⟩ := List.mem_iff_getElem?.mp hk
      simpa using hseg g k hg
  · rintro ⟨hdig, hseg⟩
    exact ⟨fun d l hd => by simpa using hdig l (List.mem_of_getElem? hd), 0, fun _ => rfl,
      fun g k hg => by simpa using hseg k (List.mem_of_getElem? hg)⟩

/-- DIG_ON of any digit comes next where the lines are quiet (R280). -/
theorem linesFollowPass_digOn_iff (d : Nat) : LinesFollowPass cfg (.busy d .digOn) mem ↔ Quiet cfg mem := by
  rw [← linesFollowPass_idle_iff]
  exact ⟨fun h => h.congr (by simp) rfl, fun h => h.congr (by simp) rfl⟩

/-- DistinctLines: each list names no line twice, and no digit line is a segment line (R187). -/
theorem Cfg.distinctLines_iff :
    cfg.DistinctLines ↔ cfg.dig.Nodup ∧ cfg.seg.Nodup ∧ ∀ l ∈ cfg.dig, ∀ k ∈ cfg.seg, l ≠ k :=
  List.nodup_append

theorem Cfg.DistinctLines.dig_not_mem_seg (h : cfg.DistinctLines) (hl : l ∈ cfg.dig) : l ∉ cfg.seg := by
  obtain ⟨-, -, hne⟩ := Cfg.distinctLines_iff.mp h
  exact fun hseg => hne l hl l hseg rfl

/-- `of_getElem?_eq_some` of a list: what is found at an index says that the index is in range. -/
theorem index_lt_of_getElem? {α : Type} {xs : List α} {d : Nat} {x : α} (h : xs[d]? = some x) : d < xs.length :=
  of_getElem?_eq_some (c := xs) h

theorem nodup_index_unique {ls : List Nat} (h : ls.Nodup) {d e : Nat} (hd : ls[d]? = some l) (he : ls[e]? = some l) :
    d = e :=
  (List.getElem?_inj (index_lt_of_getElem? hd) h).mp (hd.trans he.symm)

theorem Cfg.DistinctLines.dig_inj (h : cfg.DistinctLines) {d e : Nat} (hd : cfg.dig[d]? = some l)
    (he : cfg.dig[e]? = some l) : d = e := by
  obtain ⟨hdig, -, -⟩ := Cfg.distinctLines_iff.mp h
  exact nodup_index_unique hdig hd he

theorem Cfg.DistinctLines.seg_inj (h : cfg.DistinctLines) {g g' : Nat} (hg : cfg.seg[g]? = some l)
    (hg' : cfg.seg[g']? = some l) : g = g' := by
  obtain ⟨-, hseg, -⟩ := Cfg.distinctLines_iff.mp h
  exact nodup_index_unique hseg hg hg'

/-- On distinct lines a segment's line is lit exactly when the segment's bit is 1. -/
theorem Cfg.DistinctLines.mem_litSegs_iff (h : cfg.DistinctLines) {g : Nat} (hg : cfg.seg[g]? = some l) (m : Byte) :
    l ∈ cfg.litSegs m ↔ m.getLsbD g = true := by
  rw [Cfg.mem_litSegs]
  exact ⟨fun ⟨g', hg', hbit⟩ => h.seg_inj hg' hg ▸ hbit, fun hbit => ⟨g, hg, hbit⟩⟩

/-! ### Every phase keeps both rules -/

variable {d : Nat} (hdistinct : cfg.DistinctLines) (hl : cfg.dig[d]? = some l) (n : Nat) (m : Byte)
include hdistinct hl

theorem DigitsFollow.phase {p : Phase} (h : DigitsFollow cfg (.busy d p) mem) :
    DigitsFollow cfg (nextFsm n d p) ((phaseCall cfg l m p).levels mem) := by
  intro e k hk
  have hseg : k ∉ cfg.seg := hdistinct.dig_not_mem_seg (List.mem_of_getElem? hk)
  have hline : k = l ↔ d = e :=
    ⟨fun hkl => hdistinct.dig_inj hl (hkl ▸ hk), fun hde => by subst hde; exact Option.some.inj (hk.symm.trans hl)⟩
  cases p
  case digOn => simp [read_phaseCall_digOn, h e k hk, hline]
  case segOn => simp [read_phaseCall_segOn, h e k hk, mt Cfg.seg_of_mem_litSegs hseg]
  case holdOn => simp [read_phaseCall_holdOn, h e k hk]
  case segOff => simp [read_phaseCall_segOff, h e k hk, hseg]
  case digOff => by_cases hde : d = e <;> simp [read_phaseCall_digOff, h e k hk, hline, hde]
  case holdDly => simp [read_phaseCall_holdDly, h e k hk]

omit hl in
/-- SEG_ON shows the mask that was read where no segment was ACTIVE (R282). -/
theorem SegsShow.segOn (h : SegsShow cfg mem 0) : SegsShow cfg ((phaseCall cfg l m .segOn).levels mem) m := by
  intro g k hk
  rw [read_phaseCall_segOn, h g k hk]
  simp [hdistinct.mem_litSegs_iff hk]

omit hdistinct hl in
theorem segsShow_segOff : SegsShow cfg ((phaseCall cfg l m .segOff).levels mem) 0 := by
  intro g k hk
  rw [read_phaseCall_segOff, if_pos (List.mem_of_getElem? hk)]
  simp

/-- Switching a digit changes no segment line. -/
theorem SegsShow.of_ne_digit {p : Phase} {old : Byte} (hp : p ≠ .segOn ∧ p ≠ .segOff) (h : SegsShow cfg mem old) :
    SegsShow cfg ((phaseCall cfg l m p).levels mem) old := by
  intro g k hk
  have hkl : k ≠ l := by
    rintro rfl
    exact hdistinct.dig_not_mem_seg (List.mem_of_getElem? hl) (List.mem_of_getElem? hk)
  rw [← h g k hk]
  cases p
  case digOn => rw [read_phaseCall_digOn, if_neg hkl]
  case segOn => exact absurd rfl hp.1
  case holdOn => rfl
  case segOff => exact absurd rfl hp.2
  case digOff => rw [read_phaseCall_digOff, if_neg hkl]
  case holdDly => rfl

theorem LinesFollowPass.phase {p : Phase} (h : LinesFollowPass cfg (.busy d p) mem) :
    LinesFollowPass cfg (nextFsm n d p) ((phaseCall cfg l m p).levels mem) := by
  obtain ⟨hdigits, old, hold, hsegs⟩ := linesFollowPass_iff.mp h
  refine linesFollowPass_iff.mpr ⟨hdigits.phase hdistinct hl n m, ?_⟩
  cases p
  case digOn => exact ⟨old, fun _ => hold rfl, hsegs.of_ne_digit hdistinct hl m (by decide)⟩
  case segOn => obtain rfl := hold rfl; exact ⟨m, nofun, hsegs.segOn hdistinct m⟩
  case holdOn => exact ⟨old, nofun, hsegs.of_ne_digit hdistinct hl m (by decide)⟩
  case segOff => exact ⟨0, fun _ => rfl, segsShow_segOff m⟩
  case digOff => exact ⟨old, fun _ => hold rfl, hsegs.of_ne_digit hdistinct hl m (by decide)⟩
  case holdDly => exact ⟨old, fun _ => hold rfl, hsegs.of_ne_digit hdistinct hl m (by decide)⟩
end

/-! ### CONFIG leaves the lines quiet (R280, R351) -/

section
variable (cfg : Cfg) (mem : Memory)

/-- After CONFIG's calls a listed line is at the INACTIVE level of its last listing, and the others are as before. -/
theorem read_configCalls (k : Nat) :
    ((configCalls cfg).foldl (fun m e => e.levels m) mem).read k =
      if k ∈ cfg.seg then cfg.pol.segInactive else if k ∈ cfg.dig then cfg.pol.digitInactive else mem.read k := by
  obtain ⟨-, hdigit, -, hseg, -⟩ := cfg.pol.levels_ne
  rw [configCalls, List.foldl_append, read_claimCalls hseg, read_claimCalls hdigit]

variable {cfg}

theorem quiet_configCalls (h : cfg.DistinctLines) :
    Quiet cfg ((configCalls cfg).foldl (fun m e => e.levels m) mem) := by
  refine ⟨fun l hl => ?_, fun k hk => ?_⟩
  · rw [read_configCalls, if_neg (h.dig_not_mem_seg hl), if_pos hl]
  · rw [read_configCalls, if_pos hk]

theorem read_configCalls_of_not_mem {k : Nat} (hk : k ∉ cfg.lines) :
    ((configCalls cfg).foldl (fun m e => e.levels m) mem).read k = mem.read k := by
  rw [Cfg.lines, List.mem_append, not_or] at hk
  rw [read_configCalls, if_neg hk.2, if_neg hk.1]
end

/-- Settles O34: the calls claim and drive the two lists one after the other. -/
theorem configLeavesLinesQuiet : Obligations.ConfigLeavesLinesQuiet := by
  unfold Obligations.ConfigLeavesLinesQuiet
  intro cfg s l
  rw [State.emitAll_lvl, State.emitAll_claimed]
  exact ⟨quiet_configCalls s.lvl, read_configCalls_of_not_mem s.lvl,
    by rw [claims_configCalls, LineSet.mem_foldl_insert]⟩

/-- Settles O50: CONFIG answers an error or constructs the block, and the construction drives only listed lines. -/
theorem configFrame : Obligations.ConfigFrame := by
  unfold Obligations.ConfigFrame
  intro pol on dly digs segs s t h
  obtain ⟨-, ⟨e, v, rfl⟩ | ⟨-, -, -, rfl⟩⟩ := execConfig_cases h
  · exact ⟨rfl, rfl, rfl, rfl, rfl, rfl, rfl, fun l _ => ⟨rfl, Iff.rfl⟩⟩
  · rw [State.construct_answer]
    refine ⟨rfl, rfl, rfl, rfl, rfl, rfl, rfl, fun l hl => ⟨read_configCalls_of_not_mem s.lvl hl, ?_⟩⟩
    rw [claims_configCalls, LineSet.mem_foldl_insert]
    exact ⟨fun h => h.resolve_left hl, .inr⟩

/-! ### The display rule (R280 to R282) -/

theorem State.displayRule_iff {s : State} :
    s.DisplayRule ↔ ∀ cfg, s.cfg? = some cfg → cfg.DistinctLines → LinesFollowPass cfg s.fsm s.lvl := by
  cases hlife : s.life with
  | unconstructed =>
    simp only [State.DisplayRule, State.cfg?, hlife, reduceCtorEq, false_implies, implies_true]
  | constructed cfg buf =>
    simp only [State.DisplayRule, State.cfg?, hlife, Option.some.injEq, forall_eq']

theorem State.DisplayRule.lines {s : State} {cfg : Cfg} {buf : List Byte} (h : s.DisplayRule)
    (hlife : s.life = .constructed cfg buf) (hdistinct : cfg.DistinctLines) : LinesFollowPass cfg s.fsm s.lvl :=
  State.displayRule_iff.mp h cfg (State.cfg?_eq_some_iff.mpr ⟨buf, hlife⟩) hdistinct

/-- The rule reads the configuration, the state machine and the levels alone. -/
theorem State.DisplayRule.congr {s t : State} (h : s.DisplayRule) (hcfg : t.cfg? = s.cfg?) (hfsm : t.fsm = s.fsm)
    (hlvl : t.lvl = s.lvl) : t.DisplayRule := by
  rw [State.displayRule_iff, hcfg, hfsm, hlvl]
  exact State.displayRule_iff.mp h

theorem PortsFrame.displayRule {s u : State} (hu : PortsFrame s u) (h : s.DisplayRule) : u.DisplayRule :=
  h.congr (by simp only [State.cfg?, hu.life]) hu.fsm hu.lvl

/-- A busy state machine that an agent sees is the block's own: the writer sees none (R80). -/
theorem State.fsm_of_pass_busy {s : State} {d : Nat} {p : Phase} (h : s.pass = .busy d p) : s.fsm = .busy d p := by
  unfold State.pass at h
  split at h
  · exact h
  · cases h

/-- Settles O53: a phase keeps the rule on distinct lines, a pass starts on quiet lines, and CONFIG leaves them quiet;
a buffer command touches nothing that the rule reads. -/
theorem stepKeepsDisplayRule : Obligations.StepKeepsDisplayRule := by
  unfold Obligations.StepKeepsDisplayRule
  intro s t hrule h
  obtain ⟨u, hu, hstep⟩ := step_effects h
  replace hrule := hu.displayRule hrule
  obtain ⟨d, p, hpass, hphase⟩ | ⟨-, hframe⟩ | ⟨hpass, hturn, rfl⟩ | ⟨-, -, cfg, rfl⟩ := hstep
  · obtain ⟨cfg, buf, l, hlife, hl, rfl⟩ := runPhase_cases hphase
    refine State.displayRule_iff.mpr fun cfg' hcfg' hdistinct => ?_
    obtain rfl : cfg = cfg' := by simpa [State.cfg?, hlife] using hcfg'
    rw [State.advance_fsm, State.advance_lvl, State.emit_lvl]
    refine LinesFollowPass.phase hdistinct hl cfg.digits _ ?_
    rw [← State.fsm_of_pass_busy hpass]
    exact hrule.lines hlife hdistinct
  · exact hrule.congr hframe.cfg hframe.fsm hframe.lvl
  · have hidle : u.fsm = .idle := (State.pass_of_caller hturn).symm.trans hpass
    refine State.displayRule_iff.mpr fun cfg hcfg hdistinct => ?_
    have hlines := State.displayRule_iff.mp hrule cfg hcfg hdistinct
    rw [hidle, linesFollowPass_idle_iff] at hlines
    exact (linesFollowPass_digOn_iff 0).mpr hlines
  · rw [State.construct_answer]
    exact fun hdistinct => linesFollowPass_idle_iff.mpr (quiet_configCalls u.lvl hdistinct)

end Sys2Proof.Machine
end

section
/-! Proofs: what a pass does and shows (spec/44_refresh.md sections 2 and 3). -/
namespace Sys2Proof.Machine

/-! ### What the display rule says (R281, R282, R52) -/

section
variable {cfg : Cfg} {fsm : Fsm} {mem : Memory}

/-- A digit's line is ACTIVE exactly while the digit is selected (R281). -/
theorem DigitsFollow.active_iff (h : DigitsFollow cfg fsm mem) {d l : Nat} (hl : cfg.dig[d]? = some l) :
    mem.read l = cfg.pol.digitActive ↔ fsm.selects d = true := by
  obtain ⟨-, -, -, -, hne, -⟩ := cfg.pol.levels_ne
  rw [h d l hl]
  split <;> simp [*, hne.symm]

/-- A segment's line is ACTIVE exactly when its bit of the mask is 1 (R282). -/
theorem SegsShow.active_iff {m : Byte} (h : SegsShow cfg mem m) {g k : Nat} (hk : cfg.seg[g]? = some k) :
    mem.read k = cfg.pol.segActive ↔ m.getLsbD g = true := by
  obtain ⟨-, -, -, -, -, hne⟩ := cfg.pol.levels_ne
  rw [h g k hk]
  split <;> simp [*, hne.symm]

/-- The lit pattern is the mask, on the digit that is selected (R52). -/
theorem litAt_eq {m : Byte} (hdigits : DigitsFollow cfg fsm mem) (hsegs : SegsShow cfg mem m) (e g : Nat) :
    litAt cfg mem e g =
      (decide (e < cfg.dig.length) && fsm.selects e && decide (g < cfg.seg.length) && m.getLsbD g) := by
  unfold litAt
  split
  · rename_i l k hl hk
    simp [hdigits.active_iff hl, hsegs.active_iff hk, index_lt_of_getElem? hl, index_lt_of_getElem? hk]
  · rename_i hnone
    rcases Nat.lt_or_ge e cfg.dig.length with he | he
    · rcases Nat.lt_or_ge g cfg.seg.length with hg | hg
      · exact absurd (List.getElem?_eq_getElem hg) (hnone _ _ (List.getElem?_eq_getElem he))
      · simp [Nat.not_lt.mpr hg]
    · simp [Nat.not_lt.mpr he]

/-- At most one digit is selected (R281). -/
theorem Fsm.selects_unique {d e : Nat} (hd : fsm.selects d = true) (he : fsm.selects e = true) : d = e := by
  cases fsm with
  | idle => cases hd
  | busy f p =>
    simp only [Fsm.selects, Bool.and_eq_true, decide_eq_true_eq] at hd he
    exact hd.1.symm.trans he.1
end

/-- Settles O46: an ACTIVE digit is a selected one, and the state machine selects at most one, and none while IDLE. -/
theorem atMostOneDigitActive : Obligations.AtMostOneDigitActive := by
  unfold Obligations.AtMostOneDigitActive
  intro s cfg buf hlife hdistinct hrule
  obtain ⟨hdigits, -⟩ := linesFollowPass_iff.mp (hrule.lines hlife hdistinct)
  constructor
  · intro d e l k hl hk hlactive hkactive
    exact Fsm.selects_unique ((hdigits.active_iff hl).mp hlactive) ((hdigits.active_iff hk).mp hkactive)
  · intro hidle l hl hactive
    obtain ⟨d, hd⟩ := List.mem_iff_getElem?.mp hl
    have hselects := (hdigits.active_iff hd).mp hactive
    rw [hidle] at hselects
    cases hselects

/-- Settles O45: SEG_ON's digit stays the selected one, and the segments show the mask read. -/
theorem holdShowsMaskOnOneDigit : Obligations.HoldShowsMaskOnOneDigit := by
  unfold Obligations.HoldShowsMaskOnOneDigit
  intro s t cfg buf d hlife hdistinct hrule hfsm h e g
  obtain ⟨cfg', buf', l, hlife', hl, rfl⟩ := runPhase_cases h
  obtain ⟨rfl, rfl⟩ := Life.constructed.inj (hlife.symm.trans hlife')
  obtain ⟨hdigits, old, hold, hsegs⟩ := linesFollowPass_iff.mp (hrule.lines hlife hdistinct)
  rw [hfsm] at hdigits hold
  obtain rfl := hold rfl
  rw [State.advance_lvl, State.emit_lvl,
    litAt_eq (hdigits.phase hdistinct hl cfg.digits _) (hsegs.segOn hdistinct (buf.getD d 0)), nextFsm_segOn,
    Fsm.selects_holdOn]
  by_cases he : e = d
  · subst he; simp [index_lt_of_getElem? hl]
  · simp [he, Ne.symm he]

/-! ### A pass over distinct lines (R280) -/

section
variable {cfg : Cfg} {mem : Memory} {d l : Nat}

theorem getElem?_eq_some_getD {ls : List Nat} (h : d < ls.length) : ls[d]? = some (ls.getD d 0) := by
  rw [List.getD_eq_getElem _ _ h, List.getElem?_eq_getElem h]

/-- The six phases of a digit, from quiet lines, leave them quiet. -/
theorem quiet_digitCalls (hdistinct : cfg.DistinctLines) (hl : cfg.dig[d]? = some l) (m : Byte) (h : Quiet cfg mem) :
    Quiet cfg ((digitCalls cfg l m).foldl (fun m e => e.levels m) mem) := by
  have phase {p : Phase} {mem : Memory} (h : LinesFollowPass cfg (.busy d p) mem) :
      LinesFollowPass cfg (nextFsm 0 d p) ((phaseCall cfg l m p).levels mem) := h.phase hdistinct hl 0 m
  rw [digitCalls_eq_phaseCalls, ← linesFollowPass_idle_iff]
  exact phase (phase (phase (phase (phase (phase ((linesFollowPass_digOn_iff d).mpr h))))))
end

/-- Any number of digits, one after the other, from quiet lines, leave them quiet. -/
theorem quiet_flatMap_digitCalls {cfg : Cfg} (hdistinct : cfg.DistinctLines) (buf : List Byte) (ds : List Nat)
    (hds : ∀ d ∈ ds, d < cfg.dig.length) {mem : Memory} (h : Quiet cfg mem) :
    Quiet cfg ((ds.flatMap fun d => digitCalls cfg (cfg.dig.getD d 0) (buf.getD d 0)).foldl
      (fun m e => e.levels m) mem) := by
  induction ds generalizing mem with
  | nil => exact h
  | cons d ds ih =>
    rw [List.flatMap_cons, List.foldl_append]
    exact ih (fun e he => hds e (List.mem_cons_of_mem d he))
      (quiet_digitCalls hdistinct (getElem?_eq_some_getD (hds d List.mem_cons_self)) _ h)

/-- Settles O44: digit after digit the lines are quiet again. -/
theorem passEndsQuiet : Obligations.PassEndsQuiet := by
  unfold Obligations.PassEndsQuiet
  exact fun cfg buf m hdistinct hquiet =>
    quiet_flatMap_digitCalls hdistinct buf _ (fun d => List.mem_range.mp) hquiet

/-! ### Each phase is one call (R272, R273) -/

section
variable {s : State} {cfg : Cfg} {buf : List Byte} {d l : Nat}

/-- `s` after the calls `es`, with the state machine in `f`: what a part of a pass makes of a state. -/
def State.afterCalls (s : State) (es : List Event) (f : Fsm) : State :=
  { s with trace := s.trace ++ es, lvl := es.foldl (fun m e => e.levels m) s.lvl, fsm := f }

@[simp] theorem State.afterCalls_afterCalls (es es' : List Event) (f f' : Fsm) :
    (s.afterCalls es f).afterCalls es' f' = s.afterCalls (es ++ es') f' := by
  simp [State.afterCalls]

theorem runPhase_eq (hlife : s.life = .constructed cfg buf) (hl : cfg.dig[d]? = some l) (p : Phase) :
    runPhase d p s = .next ((s.emit (phaseCall cfg l (buf.getD d 0) p)).advance (nextFsm cfg.digits d p)) := by
  simp only [runPhase, hlife, hl]

/-- A phase that is not the pass's last makes its call and moves on. -/
theorem State.emit_phaseCall_advance_busy (m : Byte) (p : Phase) {e : Nat} {q : Phase} :
    (s.emit (phaseCall cfg l m p)).advance (.busy e q) = s.afterCalls [phaseCall cfg l m p] (.busy e q) := by
  simp [State.emit, State.advance, State.afterCalls]

/-- The last phase of a pass makes its call, ends the pass and answers OK. -/
theorem State.emit_phaseCall_advance_idle (m : Byte) (p : Phase) :
    (s.emit (phaseCall cfg l m p)).advance .idle =
      (s.afterCalls [phaseCall cfg l m p] .idle).answered .ok 0 0 := by
  simp only [State.advance, State.answer_eq_answered, State.emit, State.afterCalls, phaseCall_claims, List.foldl_cons,
    List.foldl_nil]

variable (hlife : s.life = .constructed cfg buf) (hl : cfg.dig[d]? = some l)
include hlife hl

theorem runPhase_of_succ {p q : Phase} (hsucc : p.succ = some q) :
    runPhase d p s = .next (s.afterCalls [phaseCall cfg l (buf.getD d 0) p] (.busy d q)) := by
  rw [runPhase_eq hlife hl, nextFsm, hsucc, State.emit_phaseCall_advance_busy]

theorem runPhase_holdDly_of_lt (hd : d + 1 < cfg.digits) :
    runPhase d .holdDly s = .next (s.afterCalls [.sleepUs cfg.dly] (.busy (d + 1) .digOn)) := by
  rw [runPhase_eq hlife hl, nextFsm_holdDly, if_pos hd, State.emit_phaseCall_advance_busy]
  rfl

theorem runPhase_holdDly_of_last (hd : d + 1 = cfg.digits) :
    runPhase d .holdDly s = .next ((s.afterCalls [.sleepUs cfg.dly] .idle).answered .ok 0 0) := by
  rw [runPhase_eq hlife hl, nextFsm_holdDly, if_neg (by omega), State.emit_phaseCall_advance_idle]
  rfl
end

/-- Settles O40: one equation for the five phases with a phase after them, and two for HOLD_DLY. -/
theorem phasesMakeTheirCalls : Obligations.PhasesMakeTheirCalls := by
  unfold Obligations.PhasesMakeTheirCalls
  intro d l s cfg buf hlife hl after
  refine ⟨runPhase_of_succ hlife hl rfl, ⟨cfg.litSegs (buf.getD d 0), LineSet.ofList_wf _, cfg.mem_litSegs _,
    runPhase_of_succ hlife hl rfl⟩, runPhase_of_succ hlife hl rfl, ⟨cfg.allSegs, LineSet.ofList_wf _,
    cfg.mem_allSegs, runPhase_of_succ hlife hl rfl⟩, runPhase_of_succ hlife hl rfl,
    runPhase_holdDly_of_lt hlife hl, fun hd => ?_⟩
  rw [runPhase_holdDly_of_last hlife hl hd]
  rfl

/-! ### A whole pass (R273, R274) -/

section
variable {s : State} {cfg : Cfg} {buf : List Byte} {d l : Nat}

theorem run_succ_of_step {t : State} (k : Nat) (h : step s = .next t) : core.run (k + 1) s = core.run k t := by
  have hstep : core.step s = .next t := h
  simp only [Host.Core.run, hstep]

/-- `s` is the caller's to move and its schedule is empty. -/
def CallerAlone (s : State) : Prop := s.turn = .caller ∧ s.sched = []

theorem CallerAlone.afterCalls (h : CallerAlone s) (es : List Event) (f : Fsm) : CallerAlone (s.afterCalls es f) := h

theorem CallerAlone.beginTurn (h : CallerAlone s) : s.beginTurn = s := by
  obtain ⟨hturn, hsched⟩ := h
  simp only [State.beginTurn, hsched, ← hturn]
  rw [← hsched]

theorem CallerAlone.step_phase (h : CallerAlone s) {p : Phase} (hfsm : s.fsm = .busy d p) :
    step s = runPhase d p s := by
  have hpass : s.beginTurn.pass = .busy d p := by rw [h.beginTurn, State.pass_of_caller h.1, hfsm]
  rw [step_of_pass_busy hpass, h.beginTurn]

variable (halone : CallerAlone s) (hlife : s.life = .constructed cfg buf) (hl : cfg.dig[d]? = some l)
include halone hlife hl

/-- One phase of a run with the caller alone. -/
theorem run_phase {p q : Phase} (hsucc : p.succ = some q) (k : Nat) (es : List Event) :
    core.run (k + 1) (s.afterCalls es (.busy d p)) =
      core.run k (s.afterCalls (es ++ [phaseCall cfg l (buf.getD d 0) p]) (.busy d q)) := by
  rw [← State.afterCalls_afterCalls es _ (.busy d p)]
  exact run_succ_of_step k (((halone.afterCalls es (.busy d p)).step_phase rfl).trans
    (runPhase_of_succ (s := s.afterCalls es (.busy d p)) hlife hl hsucc))

/-- The first five phases of a digit. -/
theorem run_digit_to_holdDly (k : Nat) (es : List Event) :
    core.run (k + 5) (s.afterCalls es (.busy d .digOn)) =
      core.run k (s.afterCalls (es ++ [.digOn, .segOn, .holdOn, .segOff, .digOff].map (phaseCall cfg l (buf.getD d 0)))
        (.busy d .holdDly)) := by
  rw [run_phase halone hlife hl rfl, run_phase halone hlife hl rfl, run_phase halone hlife hl rfl,
    run_phase halone hlife hl rfl, run_phase halone hlife hl rfl]
  simp

theorem run_digit_of_lt (hd : d + 1 < cfg.digits) (k : Nat) (es : List Event) :
    core.run (k + 6) (s.afterCalls es (.busy d .digOn)) =
      core.run k (s.afterCalls (es ++ digitCalls cfg l (buf.getD d 0)) (.busy (d + 1) .digOn)) := by
  have hlast := fun es' => run_succ_of_step k
    (((halone.afterCalls es' (.busy d .holdDly)).step_phase rfl).trans (runPhase_holdDly_of_lt hlife hl hd))
  rw [show k + 6 = k + 1 + 5 from rfl, run_digit_to_holdDly halone hlife hl, hlast, State.afterCalls_afterCalls,
    List.append_assoc, digitCalls_eq_phaseCalls]
  rfl

theorem run_last_digit (hd : d + 1 = cfg.digits) (es : List Event) :
    core.run 6 (s.afterCalls es (.busy d .digOn)) =
      .next ((s.afterCalls (es ++ digitCalls cfg l (buf.getD d 0)) .idle).answered .ok 0 0) := by
  have hlast := fun es' => run_succ_of_step 0
    (((halone.afterCalls es' (.busy d .holdDly)).step_phase rfl).trans (runPhase_holdDly_of_last hlife hl hd))
  rw [show 6 = 0 + 1 + 5 from rfl, run_digit_to_holdDly halone hlife hl, hlast, State.afterCalls_afterCalls,
    List.append_assoc, digitCalls_eq_phaseCalls]
  rfl
end

/-- The calls of the digits from `d` on (R274). -/
def callsFrom (cfg : Cfg) (buf : List Byte) (d r : Nat) : List Event :=
  (List.range' d r).flatMap fun e => digitCalls cfg (cfg.dig.getD e 0) (buf.getD e 0)

theorem callsFrom_zero (cfg : Cfg) (buf : List Byte) : callsFrom cfg buf 0 cfg.digits = passCalls cfg buf := by
  rw [callsFrom, passCalls, List.range_eq_range']

theorem callsFrom_succ (cfg : Cfg) (buf : List Byte) (d r : Nat) :
    digitCalls cfg (cfg.dig.getD d 0) (buf.getD d 0) ++ callsFrom cfg buf (d + 1) r = callsFrom cfg buf d (r + 1) :=
  rfl

/-- The digits from `d` on, `r + 1` of them, make their calls and end the pass. -/
theorem run_digits {s : State} {cfg : Cfg} {buf : List Byte} (halone : CallerAlone s)
    (hlife : s.life = .constructed cfg buf) (r d : Nat) (hd : d + (r + 1) = cfg.digits) (es : List Event) :
    core.run (6 * (r + 1)) (s.afterCalls es (.busy d .digOn)) =
      .next ((s.afterCalls (es ++ callsFrom cfg buf d (r + 1)) .idle).answered .ok 0 0) := by
  have hl {e : Nat} (he : e < cfg.digits) : cfg.dig[e]? = some (cfg.dig.getD e 0) := getElem?_eq_some_getD he
  induction r generalizing d es with
  | zero =>
    rw [run_last_digit halone hlife (hl (by omega)) hd]
    simp [callsFrom]
  | succ r ih =>
    rw [Nat.mul_succ, run_digit_of_lt halone hlife (hl (by omega)) (by omega), ih (d + 1) (by omega),
      List.append_assoc, callsFrom_succ]

/-- REFRESH starts a pass at the first phase of digit 0 (R273). -/
theorem exec_refresh_of_constructed {s : State} {cfg : Cfg} {buf : List Byte} (hturn : s.turn = .caller)
    (hlife : s.life = .constructed cfg buf) : exec .refresh s = .next { s with fsm := .busy 0 .digOn } := by
  simp only [exec, execRefresh, hturn, hlife]

/-- Settles O41: REFRESH starts at digit 0, and each digit's six steps make its six calls. -/
theorem refreshRunsWholePass : Obligations.RefreshRunsWholePass := by
  unfold Obligations.RefreshRunsWholePass
  intro s cfg buf hlife hdigits hturn hsched
  refine ⟨exec_refresh_of_constructed hturn hlife, ?_⟩
  · obtain ⟨r, hr⟩ := Nat.exists_eq_add_of_le' hdigits
    have hstart : ({ s with fsm := .busy 0 .digOn } : State) = s.afterCalls [] (.busy 0 .digOn) := by
      simp [State.afterCalls]
    rw [hstart, hr, run_digits ⟨hturn, hsched⟩ hlife r 0 (by omega), ← hr, callsFrom_zero]
    rfl

end Sys2Proof.Machine
end

section
/-! Proofs: what steps 4 to 8 of SETSTR make of a text (spec/43_setstring.md). -/
namespace Sys2Proof.Machine

@[simp] theorem isSep_spaceCode : isSep spaceCode = false := by decide

/-! ### Step 4 and step 5, one equation per case (R234, R235) -/

section
variable {x y : Byte} {xs : List Byte}

theorem leadSpace_of_sep (h : isSep x = true) : leadSpace (x :: xs) = spaceCode :: x :: xs := by
  rw [leadSpace, if_pos h]

theorem leadSpace_of_not_sep (h : isSep x = false) : leadSpace (x :: xs) = x :: xs := by
  rw [leadSpace, if_neg (by simp [h])]

theorem splitSeps_of_adjacent (h : isSep x = true ∧ isSep y = true) :
    splitSeps (x :: y :: xs) = x :: spaceCode :: splitSeps (y :: xs) := by
  rw [splitSeps, if_pos (by simpa using h)]

theorem splitSeps_of_not_adjacent (h : ¬(isSep x = true ∧ isSep y = true)) :
    splitSeps (x :: y :: xs) = x :: splitSeps (y :: xs) := by
  rw [splitSeps, if_neg (by simpa using h)]

/-- Step 5 keeps the first character in its place. -/
theorem splitSeps_cons (x : Byte) (xs : List Byte) : ∃ ys, splitSeps (x :: xs) = x :: ys := by
  cases xs with
  | nil => exact ⟨[], rfl⟩
  | cons y ys =>
    by_cases h : isSep x = true ∧ isSep y = true
    · exact ⟨_, splitSeps_of_adjacent h⟩
    · exact ⟨_, splitSeps_of_not_adjacent h⟩
end

/-! ### No separator at the start, no two side by side -/

/-- No two adjacent characters are both separators. -/
def SepsApart (t : List Byte) : Prop := t.IsChain fun x y => ¬(isSep x = true ∧ isSep y = true)

/-- The text does not start with a separator. -/
def StartsPlain (t : List Byte) : Prop := ∀ x ∈ t.head?, isSep x = false

theorem sepsApart_splitSeps : ∀ t, SepsApart (splitSeps t)
  | [] => .nil
  | [x] => .singleton x
  | x :: y :: ys => by
    have ih := sepsApart_splitSeps (y :: ys)
    obtain ⟨zs, hzs⟩ := splitSeps_cons y ys
    by_cases h : isSep x = true ∧ isSep y = true
    · rw [splitSeps_of_adjacent h]
      rw [hzs] at ih ⊢
      exact .cons_cons (by simp) (.cons_cons (by simp) ih)
    · rw [splitSeps_of_not_adjacent h]
      rw [hzs] at ih ⊢
      exact .cons_cons h ih

theorem startsPlain_leadSpace (t : List Byte) : StartsPlain (leadSpace t) := by
  cases t with
  | nil => simp [StartsPlain, leadSpace]
  | cons x xs =>
    cases hx : isSep x with
    | true => simp [StartsPlain, leadSpace_of_sep hx]
    | false => simp [StartsPlain, leadSpace_of_not_sep hx, hx]

theorem StartsPlain.splitSeps {t : List Byte} (h : StartsPlain t) : StartsPlain (splitSeps t) := by
  cases t with
  | nil => exact h
  | cons x xs =>
    obtain ⟨ys, hys⟩ := splitSeps_cons x xs
    rw [hys]
    exact h

theorem startsPlain_spacedText (t : List Byte) : StartsPlain (spacedText t) := (startsPlain_leadSpace t).splitSeps

theorem sepsApart_spacedText (t : List Byte) : SepsApart (spacedText t) := sepsApart_splitSeps _

theorem SepsApart.not_both {t : List Byte} (h : SepsApart t) {p : Nat} {x y : Byte} (hx : t[p]? = some x)
    (hy : t[p + 1]? = some y) : ¬(isSep x = true ∧ isSep y = true) := by
  obtain ⟨hp, rfl⟩ := List.getElem?_eq_some_iff.mp hx
  obtain ⟨hp', rfl⟩ := List.getElem?_eq_some_iff.mp hy
  exact List.isChain_iff_getElem.mp h p hp'

/-! ### What is inserted, and when nothing is -/

theorem filter_leadSpace (t : List Byte) :
    (leadSpace t).filter (fun x => x != spaceCode) = t.filter (fun x => x != spaceCode) := by
  cases t with
  | nil => rfl
  | cons x xs =>
    cases hx : isSep x with
    | true => rw [leadSpace_of_sep hx]; rfl
    | false => rw [leadSpace_of_not_sep hx]

theorem filter_splitSeps : ∀ t : List Byte,
    (splitSeps t).filter (fun x => x != spaceCode) = t.filter (fun x => x != spaceCode)
  | [] => rfl
  | [x] => rfl
  | x :: y :: ys => by
    have ih := filter_splitSeps (y :: ys)
    by_cases h : isSep x = true ∧ isSep y = true
    · rw [splitSeps_of_adjacent h, List.filter_cons, List.filter_cons (xs := y :: ys), List.filter_cons, ih]
      rfl
    · rw [splitSeps_of_not_adjacent h, List.filter_cons, List.filter_cons (xs := y :: ys), ih]

/-- How many pairs of adjacent separators a text has. -/
def adjacentSeps (t : List Byte) : Nat := ((t.zip t.tail).filter (fun x => isSep x.1 && isSep x.2)).length

theorem adjacentSeps_cons_cons (x y : Byte) (ys : List Byte) :
    adjacentSeps (x :: y :: ys) =
      (if isSep x = true ∧ isSep y = true then 1 else 0) + adjacentSeps (y :: ys) := by
  unfold adjacentSeps
  rw [List.tail_cons, List.zip_cons_cons, List.filter_cons]
  by_cases h : isSep x = true ∧ isSep y = true <;> simp [h, Nat.add_comm]

theorem length_splitSeps : ∀ t : List Byte, (splitSeps t).length = t.length + adjacentSeps t
  | [] => rfl
  | [x] => rfl
  | x :: y :: ys => by
    have ih := length_splitSeps (y :: ys)
    by_cases h : isSep x = true ∧ isSep y = true
    · rw [splitSeps_of_adjacent h, adjacentSeps_cons_cons, if_pos h]
      simp only [List.length_cons, ih]; omega
    · rw [splitSeps_of_not_adjacent h, adjacentSeps_cons_cons, if_neg h]
      simp only [List.length_cons, ih]; omega

/-- Step 4 inserts one space where the text starts with a separator. -/
theorem length_leadSpace (t : List Byte) :
    (leadSpace t).length = t.length + (t.head?.toList.filter isSep).length := by
  cases t with
  | nil => rfl
  | cons x xs =>
    cases hx : isSep x with
    | true => simp [leadSpace_of_sep hx, hx]
    | false => simp [leadSpace_of_not_sep hx, hx]

/-- The space of step 4 is beside no separator pair. -/
theorem adjacentSeps_leadSpace (t : List Byte) : adjacentSeps (leadSpace t) = adjacentSeps t := by
  cases t with
  | nil => rfl
  | cons x xs =>
    cases hx : isSep x with
    | true => rw [leadSpace_of_sep hx, adjacentSeps_cons_cons]; simp
    | false => rw [leadSpace_of_not_sep hx]

theorem StartsPlain.leadSpace_eq {t : List Byte} (h : StartsPlain t) : leadSpace t = t := by
  cases t with
  | nil => rfl
  | cons x xs => exact leadSpace_of_not_sep (h x rfl)

theorem SepsApart.splitSeps_eq : ∀ {t : List Byte}, SepsApart t → splitSeps t = t
  | [], _ => rfl
  | [x], _ => rfl
  | x :: y :: ys, h => by
    obtain ⟨hxy, htail⟩ := List.isChain_cons_cons.mp h
    rw [splitSeps_of_not_adjacent hxy, SepsApart.splitSeps_eq htail]

/-- Settles O24: each of the two steps inserts spaces only, between characters that it leaves in order. -/
theorem separatorsGetSpaces : Obligations.SeparatorsGetSpaces := by
  unfold Obligations.SeparatorsGetSpaces
  intro t
  refine ⟨?start, ?apart, ?filter, ?length, ?unchanged⟩
  case start =>
    intro x hx
    exact startsPlain_spacedText t x (by rwa [List.head?_eq_getElem?])
  case apart => exact fun p x y => (sepsApart_spacedText t).not_both
  case filter => rw [spacedText, filter_splitSeps, filter_leadSpace]
  case length =>
    rw [spacedText, length_splitSeps, length_leadSpace, adjacentSeps_leadSpace]
    rfl
  case unchanged =>
    intro hstart hapart
    have hplain : StartsPlain t := fun x hx => hstart x (by rwa [← List.head?_eq_getElem?])
    have happ : SepsApart t := List.isChain_iff_getElem.mpr fun p hp =>
      hapart p _ _ (List.getElem?_eq_getElem _) (List.getElem?_eq_getElem hp)
    rw [spacedText, hplain.leadSpace_eq, happ.splitSeps_eq]

/-! ### How many characters stand before a position (R237, R239) -/

/-- How many characters of `v` before position `p` are rendered. -/
def renderedBefore (v : List Byte) (p : Nat) : Nat := (renderedChars (v.take p)).length

section
variable {v : List Byte} {p q : Nat} {x : Byte}

theorem renderedBefore_succ_of_plain (hp : v[p]? = some x) (hx : isSep x = false) :
    renderedBefore v (p + 1) = renderedBefore v p + 1 := by
  rw [renderedBefore, renderedBefore, List.take_add_one, hp]
  simp [renderedChars, hx]

theorem renderedBefore_mono (h : p ≤ q) : renderedBefore v p ≤ renderedBefore v q :=
  (((List.take_sublist_take_left h)).filter _).length_le

theorem renderedBefore_le (p : Nat) : renderedBefore v p ≤ (renderedChars v).length :=
  ((List.take_sublist p v).filter _).length_le

/-- The character before a separator is rendered (R242). -/
theorem renderedBefore_sep (hplain : StartsPlain v) (hapart : SepsApart v) (hp : v[p]? = some x)
    (hx : isSep x = true) : ∃ q, p = q + 1 ∧ renderedBefore v p = renderedBefore v q + 1 := by
  cases p with
  | zero =>
    have := hplain x (by rwa [List.head?_eq_getElem?])
    rw [hx] at this; cases this
  | succ q =>
    have hq : q < v.length := Nat.lt_of_succ_lt (index_lt_of_getElem? hp)
    have hbefore : v[q]? = some v[q] := List.getElem?_eq_getElem hq
    have hy : isSep v[q] = false := by
      have := hapart.not_both hbefore hp
      simpa [hx] using this
    exact ⟨q, rfl, renderedBefore_succ_of_plain hbefore hy⟩

/-- Before a separator more characters are rendered than before any earlier position (R242). -/
theorem renderedBefore_lt_of_sep (hplain : StartsPlain v) (hapart : SepsApart v) (hq : v[q]? = some x)
    (hx : isSep x = true) (hpq : p < q) : renderedBefore v p < renderedBefore v q := by
  obtain ⟨r, rfl, hr⟩ := renderedBefore_sep hplain hapart hq hx
  have := renderedBefore_mono (v := v) (Nat.lt_succ_iff.mp hpq)
  omega
end

/-! ### The dots (R239, R242) -/

/-- The positions of the separators of a text. -/
def sepPositions (v : List Byte) : List Nat := (List.range v.length).filter fun p => isSep (v.getD p 0)

theorem mem_sepPositions {v : List Byte} {p : Nat} :
    p ∈ sepPositions v ↔ ∃ x, v[p]? = some x ∧ isSep x = true := by
  rw [sepPositions, List.mem_filter, List.mem_range]
  constructor
  · rintro ⟨hp, hsep⟩
    exact ⟨_, List.getElem?_eq_getElem hp, by rwa [List.getD_eq_getElem _ _ hp] at hsep⟩
  · rintro ⟨x, hx, hsep⟩
    obtain ⟨hp, rfl⟩ := List.getElem?_eq_some_iff.mp hx
    exact ⟨hp, by rwa [List.getD_eq_getElem _ _ hp]⟩

theorem sepPositions_cons (x : Byte) (xs : List Byte) :
    sepPositions (x :: xs) = (if isSep x then [0] else []) ++ (sepPositions xs).map Nat.succ := by
  rw [sepPositions, List.length_cons, List.range_succ_eq_map, List.filter_cons, List.filter_map, sepPositions]
  cases hx : isSep x <;> simp [hx, Function.comp_def]

theorem renderedBefore_cons_succ (x : Byte) (xs : List Byte) (p : Nat) :
    renderedBefore (x :: xs) (p + 1) = (if isSep x then 0 else 1) + renderedBefore xs p := by
  rw [renderedBefore, renderedBefore, List.take_succ_cons]
  cases hx : isSep x <;> simp [renderedChars, hx, Nat.add_comm]

/-- `dotTargetsFrom` after a front of `p` characters, `n` of them separators: each target counts the characters rendered
before its separator. -/
theorem dotTargetsFrom_eq (v : List Byte) (p n : Nat) (h : n ≤ p) :
    dotTargetsFrom p n v = (sepPositions v).map fun q => p - n + renderedBefore v q - 1 := by
  induction v generalizing p n with
  | nil => rfl
  | cons x xs ih =>
    rw [dotTargetsFrom, sepPositions_cons]
    cases hx : isSep x with
    | true =>
      simp only [if_true, ih (p + 1) (n + 1) (by omega), List.map_map, List.map_cons, List.cons_append,
        List.nil_append, Function.comp_def, renderedBefore_cons_succ, hx]
      refine congrArg₂ List.cons ?_ (List.map_congr_left fun q _ => ?_)
      · simp [renderedBefore, renderedChars]; omega
      · omega
    | false =>
      simp only [Bool.false_eq_true, if_false, ih (p + 1) n (by omega), List.map_map, List.nil_append,
        Function.comp_def, renderedBefore_cons_succ, hx]
      exact List.map_congr_left fun q _ => by omega

theorem textDots_eq (t : List Byte) :
    textDots t = (sepPositions (spacedText t)).map fun p => renderedBefore (spacedText t) p - 1 := by
  rw [textDots, dotTargetsFrom_eq _ _ _ le_rfl]
  exact List.map_congr_left fun p _ => by omega

theorem renderedBefore_pos {t : List Byte} {p : Nat} (hp : p ∈ sepPositions (spacedText t)) :
    1 ≤ renderedBefore (spacedText t) p := by
  obtain ⟨x, hx, hsep⟩ := mem_sepPositions.mp hp
  obtain ⟨q, -, hq⟩ := renderedBefore_sep (startsPlain_spacedText t) (sepsApart_spacedText t) hx hsep
  omega

/-- Every dot goes to a rendered digit (R242). -/
theorem textDots_lt {t : List Byte} {d : Nat} (hd : d ∈ textDots t) : d < (textChars t).length := by
  rw [textDots_eq] at hd
  obtain ⟨p, hp, rfl⟩ := List.mem_map.mp hd
  have hone := renderedBefore_pos hp
  have hle : renderedBefore (spacedText t) p ≤ (textChars t).length := renderedBefore_le p
  omega

theorem textDots_nodup (t : List Byte) : (textDots t).Nodup := by
  rw [textDots_eq]
  refine List.Nodup.map_on (fun p hp q hq heq => ?_) (List.nodup_range.filter _)
  have hone := renderedBefore_pos hp
  have hone' := renderedBefore_pos hq
  obtain ⟨x, hx, hsep⟩ := mem_sepPositions.mp hp
  obtain ⟨y, hy, hsep'⟩ := mem_sepPositions.mp hq
  have hplain := startsPlain_spacedText t
  have hapart := sepsApart_spacedText t
  rcases Nat.lt_trichotomy p q with hlt | rfl | hgt
  · have := renderedBefore_lt_of_sep hplain hapart hy hsep' hlt
    omega
  · rfl
  · have := renderedBefore_lt_of_sep hplain hapart hx hsep hgt
    omega

/-- Settles O25: the target counts the characters before its separator, and one is rendered between any two. -/
theorem dotTargetsAreRenderedDigits : Obligations.DotTargetsAreRenderedDigits := by
  unfold Obligations.DotTargetsAreRenderedDigits
  intro t
  exact ⟨textDots_eq t, fun p x hx hsep => renderedBefore_pos (mem_sepPositions.mpr ⟨x, hx, hsep⟩),
    fun d => textDots_lt, textDots_nodup t⟩

end Sys2Proof.Machine
end

section
/-! Proofs: the atomic steps of SETSEG and SETSTR (spec/42_buffer_ops.md, spec/43_setstring.md, spec/20_memory.md). -/
namespace Sys2Proof.Machine

/-! ### Moving the agent inside its command -/

section
variable (s : State) (task task' : Task)

@[simp] theorem State.setTask_setTask : (s.setTask task).setTask task' = s.setTask task' := by
  unfold State.setTask
  cases h : s.turn <;> simp only

/-- Writing the buffer and moving the agent do not meet. -/
theorem State.bufWrite_setTask (i : Nat) (v : Byte) :
    (s.setTask task).bufWrite i v = (s.bufWrite i v).setTask task := by
  unfold State.setTask State.bufWrite
  cases h : s.turn <;> cases hlife : s.life <;> simp only [h, hlife]

@[simp] theorem State.bufRead_setTask (i : Nat) : (s.setTask task).bufRead i = s.bufRead i := by
  simp only [State.bufRead, State.buf, State.setTask_life]

@[simp] theorem State.finishTask_setTask : (s.setTask task).finishTask = s.finishTask := by
  simp only [State.finishTask, State.setTask_setTask]

@[simp] theorem State.abortTask_setTask (e : Status) (v : Value) :
    (s.setTask task).abortTask e v = s.abortTask e v := by
  simp only [State.abortTask, State.setTask_setTask]

@[simp] theorem State.startDots_setTask (dots : List Nat) : (s.setTask task).startDots dots = s.startDots dots := by
  cases dots <;> simp only [State.startDots, State.finishTask_setTask, State.setTask_setTask]

@[simp] theorem State.startRender_setTask (d : Nat) (chars : List Byte) (dots : List Nat) :
    (s.setTask task).startRender d chars dots = s.startRender d chars dots := by
  cases chars <;> simp only [State.startRender, State.startDots_setTask, State.setTask_setTask]

/-- The end of a command adds its response and leaves the agent inside no command. -/
theorem State.finishTask_eq : s.finishTask = (s.answered .ok 0 0).setTask .none := by
  unfold State.finishTask State.setTask
  cases h : s.turn <;> simp only [State.answered, State.answer, State.respond, State.emit, State.reply, h] <;> rfl

theorem State.abortTask_eq (e : Status) (v : Value) : s.abortTask e v = (s.answered e 0 v).setTask .none := by
  unfold State.abortTask State.setTask
  cases h : s.turn <;> simp only [State.answered, State.raise, State.respond, State.emit, State.reply, h] <;> rfl
end

/-! ### One equation per atomic step (R205, R238, R239) -/

section
variable {s : State} {i g d : Nat} {v c : Byte} {cs : List Byte} {dots ds : List Nat}

theorem resumeTask_segWrite (h : s.task = .segWrite i g v) :
    resumeTask s = (s.bufWrite i (v ||| (1#8 <<< g))).finishTask := by
  simp only [resumeTask, h]

theorem resumeTask_render_glyph {m : Byte} (h : s.task = .render d (c :: cs) dots) (hc : glyph c = some m) :
    resumeTask s = (s.bufWrite d m).startRender (d + 1) cs dots := by
  simp only [resumeTask, h, State.renderChar, hc]

theorem resumeTask_render_no_glyph (h : s.task = .render d (c :: cs) dots) (hc : glyph c = none) :
    resumeTask s = s.abortTask .unsupportedCharacter (c.setWidth 16) := by
  simp only [resumeTask, h, State.renderChar, hc]

theorem resumeTask_dotRead (h : s.task = .dotRead (d :: ds)) :
    resumeTask s = s.setTask (.dotWrite d (s.bufRead d) ds) := by
  simp only [resumeTask, h]

theorem resumeTask_dotWrite (h : s.task = .dotWrite d v ds) :
    resumeTask s = (s.bufWrite d (v ||| 0x80)).startDots ds := by
  simp only [resumeTask, h]; rfl

/-- A command's last write, with its response. -/
theorem State.bufWrite_finishTask {cfg : Cfg} {buf : List Byte} (hlife : s.life = .constructed cfg buf) :
    (s.bufWrite d v).finishTask =
      ({ s with life := .constructed cfg (buf.set d v), trace := s.trace ++ [s.reply .ok 0 0] } : State).setTask
        .none := by
  rw [State.finishTask_eq, s.bufWrite_eq d v hlife]
  rfl

theorem State.bufRead_eq {cfg : Cfg} {buf : List Byte} (hlife : s.life = .constructed cfg buf) :
    s.bufRead d = buf.getD d 0 := by
  rw [State.bufRead, State.buf_of_constructed hlife]
end

/-! ### A command run to its end -/

/-- The agent's command run to its response with nothing in between (log 1). -/
def State.runOut (s : State) : State := drain s.task.size s

section
variable {s : State}

theorem State.settle_of_writer (h : s.config.asyncWriter = true) : s.settle = s := if_pos h

theorem State.settle_of_no_writer (h : s.config.asyncWriter = false) : s.settle = s.runOut := by
  rw [State.settle, if_neg (by simp [h]), State.runOut]

theorem State.runOut_of_task_none (h : s.task = .none) : s.runOut = s := drain_of_none _ _ h

@[simp] theorem State.runOut_finishTask (s : State) : s.finishTask.runOut = s.finishTask :=
  State.runOut_of_task_none s.finishTask_task

@[simp] theorem State.runOut_abortTask (s : State) (e : Status) (v : Value) :
    (s.abortTask e v).runOut = s.abortTask e v :=
  State.runOut_of_task_none (s.abortTask_task e v)

/-- One atomic step first changes nothing of where the command ends. -/
theorem State.runOut_resumeTask (h : s.task ≠ .none) : s.runOut = (resumeTask s).runOut := by
  have hlt := resumeTask_size_lt s h
  obtain ⟨k, hk⟩ := Nat.exists_eq_add_of_lt hlt
  rw [State.runOut, hk, drain_succ _ _ h]
  exact drain_eq_of_size_le (Nat.le_add_right ..)

theorem State.runOut_task (s : State) : s.runOut.task = .none := drain_task _ _ le_rfl

theorem State.runOut_setTask {task : Task} (h : task ≠ .none) :
    (s.setTask task).runOut = (resumeTask (s.setTask task)).runOut :=
  State.runOut_resumeTask (by rwa [State.setTask_task])
end

/-! ### The outcomes of the five buffer commands -/

/-- A buffer command answers at once, writes one glyph and answers, or starts the atomic steps of SETSEG or SETSTR. -/
theorem exec_buffer_cases {i : Instr} {s t : State} (hi : bufferCommand i = true) (h : exec i s = .next t) :
    (∃ e d v, t = s.answered e d v) ∨
    ∃ cfg buf, s.life = .constructed cfg buf ∧
      ((∃ k m, (i = .setcomma k ∨ ∃ c, i = .setdigit k c) ∧ k < cfg.digits ∧ t = (s.bufWrite k m).answer 0) ∨
        (∃ k g, i = .setseg k g ∧ k < cfg.digits ∧ g < 8 ∧
          t = (s.setTask (.segWrite k g (s.bufRead k))).settle) ∨
        ∃ text, i = .setstr text ∧ textCheck cfg.digits text = none ∧
          t = (s.startRender 0 (textChars text) (textDots text)).settle) := by
  have hsetDigit (cfg : Cfg) (k : Nat) (c : Byte) : (∃ e d v, s.setDigit cfg k c = s.answered e d v) ∨
      ∃ m, k < cfg.digits ∧ s.setDigit cfg k c = (s.bufWrite k m).answer 0 := by
    unfold State.setDigit
    split
    · exact .inl ⟨_, _, _, rfl⟩
    · split
      · exact .inl ⟨_, _, _, rfl⟩
      · exact .inr ⟨_, by omega, rfl⟩
  cases i with
  | refresh => cases hi
  | config pol on dly digs segs => cases hi
  | lookup c =>
    cases hc : glyph c with
    | none => rw [exec_lookup_of_no_glyph s hc] at h; cases h; exact .inl ⟨_, _, _, rfl⟩
    | some m => rw [exec_lookup_of_glyph s hc] at h; cases h; exact .inl ⟨_, _, _, rfl⟩
  | setdigit k c =>
    cases hlife : s.life with
    | unconstructed => rw [exec_setdigit_of_unconstructed hlife] at h; cases h; exact .inl ⟨_, _, _, rfl⟩
    | constructed cfg buf =>
      rw [exec_setdigit_of_constructed hlife] at h; cases h
      obtain hanswer | ⟨m, hk, hwrite⟩ := hsetDigit cfg k c
      · exact .inl hanswer
      · exact .inr ⟨cfg, buf, rfl, .inl ⟨k, m, .inr ⟨c, rfl⟩, hk, hwrite⟩⟩
  | setcomma k =>
    cases hlife : s.life with
    | unconstructed => rw [exec_setcomma_of_unconstructed hlife] at h; cases h; exact .inl ⟨_, _, _, rfl⟩
    | constructed cfg buf =>
      rw [exec_setcomma_of_constructed hlife] at h; cases h
      obtain hanswer | ⟨m, hk, hwrite⟩ := hsetDigit cfg k dotCode
      · exact .inl hanswer
      · exact .inr ⟨cfg, buf, rfl, .inl ⟨k, m, .inl rfl, hk, hwrite⟩⟩
  | setseg k g =>
    cases hlife : s.life with
    | unconstructed => rw [exec_setseg_of_unconstructed hlife] at h; cases h; exact .inl ⟨_, _, _, rfl⟩
    | constructed cfg buf =>
      simp only [exec, execSetseg, hlife] at h
      split at h
      · cases h; exact .inl ⟨_, _, _, rfl⟩
      · split at h <;> cases h
        · exact .inl ⟨_, _, _, rfl⟩
        · exact .inr ⟨cfg, buf, rfl, .inr (.inl ⟨k, g, rfl, by omega, by omega, rfl⟩)⟩
  | setstr text =>
    cases hlife : s.life with
    | unconstructed => rw [exec_setstr_of_unconstructed hlife] at h; cases h; exact .inl ⟨_, _, _, rfl⟩
    | constructed cfg buf =>
      cases hcheck : textCheck cfg.digits text with
      | some failure => rw [exec_setstr_of_check_fails hlife hcheck] at h; cases h; exact .inl ⟨_, _, _, rfl⟩
      | none =>
        rw [exec_setstr_of_check_passes hlife hcheck] at h; cases h
        exact .inr ⟨cfg, buf, rfl, .inr (.inr ⟨text, rfl, hcheck, rfl⟩)⟩

/-! ### SETSEG (R205, R206) -/

section
variable {s : State} {cfg : Cfg} {buf : List Byte} {i g : Nat}

theorem exec_setseg_of_index_out (hlife : s.life = .constructed cfg buf) (hi : cfg.digits ≤ i) :
    exec (.setseg i g) s = .next (s.answered .rangeError 0 (BitVec.ofNat 16 i)) := by
  simp only [exec, execSetseg, hlife, if_pos hi, State.raise_eq_answered]

theorem exec_setseg_of_segment_out (hlife : s.life = .constructed cfg buf) (hi : i < cfg.digits) (hg : 8 ≤ g) :
    exec (.setseg i g) s = .next (s.answered .rangeError 0 (BitVec.ofNat 16 g)) := by
  simp only [exec, execSetseg, hlife, if_neg (Nat.not_le.mpr hi), if_pos hg, State.raise_eq_answered]

theorem exec_setseg_of_in_range (hlife : s.life = .constructed cfg buf) (hi : i < cfg.digits) (hg : g < 8) :
    exec (.setseg i g) s = .next (s.setTask (.segWrite i g (buf.getD i 0))).settle := by
  simp only [exec, execSetseg, hlife, if_neg (Nat.not_le.mpr hi), if_neg (Nat.not_le.mpr hg),
    State.bufRead_eq hlife]

/-- SETSEG's read and write, with nothing in between. -/
theorem State.runOut_segWrite (v : Byte) :
    (s.setTask (.segWrite i g v)).runOut = (s.bufWrite i (v ||| (1#8 <<< g))).finishTask := by
  rw [State.runOut_setTask (task := .segWrite i g v) nofun, resumeTask_segWrite (State.setTask_task ..),
    State.runOut_finishTask, State.bufWrite_setTask, State.finishTask_setTask]
end

/-- Settles O20: SETSEG's two range checks, the digit's first. -/
theorem setsegRangeErrors : Obligations.SetsegRangeErrors := by
  unfold Obligations.SetsegRangeErrors
  exact fun i g s cfg buf hlife => ⟨exec_setseg_of_index_out hlife, exec_setseg_of_segment_out hlife⟩

/-- Settles O21: with a writer the command stops after its read, and its atomic step is the write. -/
theorem setsegReadsThenWrites : Obligations.SetsegReadsThenWrites := by
  unfold Obligations.SetsegReadsThenWrites
  refine ⟨fun i g s cfg buf hlife hasync hi hg => ?_, fun i g v u cfg buf hlife htask => ?_⟩
  · rw [exec_setseg_of_in_range hlife hi hg, State.settle_of_writer (by simpa using hasync)]
  · rw [resumeTask_segWrite htask, State.bufWrite_finishTask hlife]

/-- Setting a bit changes no other. -/
theorem getLsbD_or_one_shiftLeft (v : Byte) {g b : Nat} (hb : b < 8) :
    (v ||| (1#8 <<< g)).getLsbD b = if b = g then true else v.getLsbD b := by
  rw [BitVec.getLsbD_or, getLsbD_one_shiftLeft g hb]
  split <;> simp [*]

/-- Settles O19: with no writer the write follows the read at once, and the value written sets one bit. -/
theorem setsegOrsOneBit : Obligations.SetsegOrsOneBit := by
  unfold Obligations.SetsegOrsOneBit
  intro i g s cfg buf hlife hasync hi hg
  refine ⟨?_, fun b hb => getLsbD_or_one_shiftLeft _ hb⟩
  rw [exec_setseg_of_in_range hlife hi hg, State.settle_of_no_writer (by simpa using hasync), State.runOut_segWrite,
    State.bufWrite_finishTask hlife]

/-! ### SETSTR step by step (R238, R239) -/

/-- Settles O30: each clause is one equation of `resumeTask`, and the first stops before any access. -/
theorem setstrAtomicSteps : Obligations.SetstrAtomicSteps := by
  unfold Obligations.SetstrAtomicSteps
  refine ⟨fun t s cfg buf c cs hlife hasync hcheck hchars => ?checks, ?steps⟩
  case checks =>
    rw [exec_setstr_of_check_passes hlife hcheck, hchars, State.startRender,
      State.settle_of_writer (by simpa using hasync)]
  case steps =>
    intro u cfg buf hlife write writeLast
    have hwrite (d : Nat) (v : Byte) : u.bufWrite d v = write d v := u.bufWrite_eq d v hlife
    have hwriteLast (d : Nat) (v : Byte) : (u.bufWrite d v).finishTask = writeLast d v :=
      State.bufWrite_finishTask hlife
    refine ⟨?noGlyph, ?glyph, ?lastGlyph, ?lastAccess, ?dotRead, ?dotWrite, ?lastDot⟩
    case noGlyph =>
      intro d c cs dots htask hc
      rw [resumeTask_render_no_glyph htask hc, State.abortTask_eq]
    case glyph =>
      intro d c c' cs dots m htask hc
      rw [resumeTask_render_glyph htask hc, hwrite, State.startRender]
    case lastGlyph =>
      intro d c e ds m htask hc
      rw [resumeTask_render_glyph htask hc, hwrite, State.startRender, State.startDots]
    case lastAccess =>
      intro d c m htask hc
      rw [resumeTask_render_glyph htask hc, State.startRender_nil_nil, hwriteLast]
    case dotRead =>
      intro d ds htask
      rw [resumeTask_dotRead htask, State.bufRead_eq hlife]
    case dotWrite =>
      intro d v e ds htask
      rw [resumeTask_dotWrite htask, hwrite, State.startDots]
    case lastDot =>
      intro d v htask
      rw [resumeTask_dotWrite htask, State.startDots, hwriteLast]

/-! ### SETSTR run to its end (R237 to R241) -/

section
variable {s : State} {d : Nat} {c : Byte} {cs : List Byte} {dots : List Nat}

theorem State.runOut_startRender_glyph {m : Byte} (hc : glyph c = some m) :
    (s.startRender d (c :: cs) dots).runOut = ((s.bufWrite d m).startRender (d + 1) cs dots).runOut := by
  rw [State.startRender, State.runOut_setTask (task := .render d (c :: cs) dots) nofun,
    resumeTask_render_glyph (State.setTask_task ..) hc, State.bufWrite_setTask, State.startRender_setTask]

theorem State.runOut_startRender_no_glyph (hc : glyph c = none) :
    (s.startRender d (c :: cs) dots).runOut = s.abortTask .unsupportedCharacter (c.setWidth 16) := by
  rw [State.startRender, State.runOut_setTask (task := .render d (c :: cs) dots) nofun,
    resumeTask_render_no_glyph (State.setTask_task ..) hc, State.runOut_abortTask, State.abortTask_setTask]

/-- A dot's read and write, with nothing in between. -/
theorem State.runOut_startDots_cons :
    (s.startDots (d :: dots)).runOut = ((s.bufWrite d (s.bufRead d ||| 0x80)).startDots dots).runOut := by
  rw [State.startDots, State.runOut_setTask (task := .dotRead (d :: dots)) nofun,
    resumeTask_dotRead (State.setTask_task ..), State.setTask_setTask,
    State.runOut_setTask (task := .dotWrite ..) nofun, resumeTask_dotWrite (State.setTask_task ..),
    State.bufWrite_setTask, State.startDots_setTask, State.bufRead_setTask]
end

/-- The glyphs of `chars` in the entries from `d` on (R238). -/
def glyphsAt (d : Nat) : List Byte → List Byte → List Byte
  | [], buf => buf
  | c :: cs, buf => glyphsAt (d + 1) cs (buf.set d (glyphMask c))

/-- Bit 7 set in each entry that a dot targets (R239). -/
def dotsMerged : List Nat → List Byte → List Byte
  | [], buf => buf
  | d :: ds, buf => dotsMerged ds (buf.set d (buf.getD d 0 ||| 0x80))

section
variable (d j : Nat) (chars : List Byte) (dots : List Nat) (buf : List Byte)

@[simp] theorem length_glyphsAt : (glyphsAt d chars buf).length = buf.length := by
  induction chars generalizing d buf with
  | nil => rfl
  | cons c cs ih => rw [glyphsAt, ih, List.length_set]

@[simp] theorem length_dotsMerged : (dotsMerged dots buf).length = buf.length := by
  induction dots generalizing buf with
  | nil => rfl
  | cons d ds ih => rw [dotsMerged, ih, List.length_set]

theorem getD_set (v : Byte) (hj : j < buf.length) : (buf.set d v).getD j 0 = if j = d then v else buf.getD j 0 := by
  rw [List.getD_eq_getElem _ _ (by rwa [List.length_set]), List.getD_eq_getElem _ _ hj, List.getElem_set]
  simp only [eq_comm]

theorem getD_glyphsAt (hj : j < buf.length) :
    (glyphsAt d chars buf).getD j 0 =
      if d ≤ j ∧ j < d + chars.length then glyphMask (chars.getD (j - d) 0) else buf.getD j 0 := by
  induction chars generalizing d buf with
  | nil => rw [glyphsAt, if_neg (by simp only [List.length_nil]; omega)]
  | cons c cs ih =>
    rw [glyphsAt, ih _ _ (by rwa [List.length_set]), getD_set _ _ _ _ hj, List.length_cons]
    rcases Nat.lt_trichotomy j d with hlt | rfl | hgt
    · rw [if_neg (by omega), if_neg (by omega), if_neg (by omega)]
    · rw [if_neg (by omega), if_pos rfl, if_pos (by omega), Nat.sub_self, List.getD_cons_zero]
    · have hsub : j - d = j - (d + 1) + 1 := by omega
      rw [hsub, List.getD_cons_succ, if_neg (show ¬ j = d by omega)]
      exact if_congr (by omega) rfl rfl

theorem getD_dotsMerged (hj : j < buf.length) :
    (dotsMerged dots buf).getD j 0 = buf.getD j 0 ||| (if j ∈ dots then 0x80 else 0) := by
  induction dots generalizing buf with
  | nil => simp [dotsMerged]
  | cons d ds ih =>
    rw [dotsMerged, ih _ (by rwa [List.length_set]), getD_set _ _ _ _ hj]
    by_cases hd : j = d
    · subst hd
      by_cases hmem : j ∈ ds <;> simp [hmem, BitVec.or_assoc]
    · simp [hd]
end

section
variable {s : State} {cfg : Cfg} {buf : List Byte}

/-- `s` with the buffer `buf`. -/
def State.withBuf (cfg : Cfg) (buf : List Byte) (s : State) : State := { s with life := .constructed cfg buf }

theorem State.withBuf_self (hlife : s.life = .constructed cfg buf) : s.withBuf cfg buf = s := by
  rw [State.withBuf, ← hlife]

/-- Characters that have glyphs are rendered, and the command goes on with the rest (R238). -/
theorem State.runOut_startRender_append (hlife : s.life = .constructed cfg buf) (d : Nat) (done rest : List Byte)
    (dots : List Nat) (hdone : ∀ c ∈ done, glyph c ≠ none) :
    (s.startRender d (done ++ rest) dots).runOut =
      ((s.withBuf cfg (glyphsAt d done buf)).startRender (d + done.length) rest dots).runOut := by
  induction done generalizing s d buf with
  | nil => rw [glyphsAt, State.withBuf_self hlife]; rfl
  | cons c cs ih =>
    obtain ⟨m, hm⟩ := Option.ne_none_iff_exists'.mp (hdone c List.mem_cons_self)
    have hmask : glyphMask c = m := by rw [glyphMask, hm, Option.getD_some]
    rw [List.cons_append, State.runOut_startRender_glyph hm, s.bufWrite_eq d m hlife,
      ih (buf := buf.set d m) rfl (d + 1) fun x hx => hdone x (List.mem_cons_of_mem c hx), glyphsAt, hmask,
      List.length_cons, Nat.add_right_comm, Nat.add_assoc]
    rfl

/-- The dots are merged one after the other, and the command answers OK (R239). -/
theorem State.runOut_startDots (hlife : s.life = .constructed cfg buf) (dots : List Nat) :
    (s.startDots dots).runOut = (s.withBuf cfg (dotsMerged dots buf)).finishTask := by
  induction dots generalizing s buf with
  | nil => rw [State.startDots, State.runOut_finishTask, dotsMerged, State.withBuf_self hlife]
  | cons d ds ih =>
    rw [State.runOut_startDots_cons, State.bufRead_eq hlife, s.bufWrite_eq _ _ hlife, ih rfl]
    rfl
end

/-! ### A text that fits (R231 to R236) -/

/-- Every character of the spaced text is a separator or is rendered (R237). -/
theorem length_spacedText (t : List Byte) :
    (spacedText t).length = sepCount (spacedText t) + (textChars t).length := by
  rw [sepCount, textChars, renderedChars]
  exact List.length_eq_length_filter_add isSep

theorem length_dotTargetsFrom (p n : Nat) (v : List Byte) : (dotTargetsFrom p n v).length = sepCount v := by
  induction v generalizing p n with
  | nil => rfl
  | cons x xs ih => cases hx : isSep x <;> simp [dotTargetsFrom, sepCount, hx, ih]

/-- No more separators than rendered characters: each has a digit of its own (R242). -/
theorem sepCount_spacedText_le (t : List Byte) : sepCount (spacedText t) ≤ (textChars t).length := by
  have hlen : (textDots t).length = sepCount (spacedText t) := length_dotTargetsFrom 0 0 _
  have hsub : textDots t ⊆ List.range (textChars t).length := fun d hd => List.mem_range.mpr (textDots_lt hd)
  simpa [hlen] using ((textDots_nodup t).subperm hsub).length_le

/-- Check 6 asks only that the rendered characters fit. -/
theorem textCheck_of_textChars_fit {n : Nat} {t : List Byte} (hlen : t.length ≤ 2 * n) (hseps : sepCount t ≤ n)
    (hchars : t.length - sepCount t ≤ n) (hrendered : (textChars t).length ≤ n) : textCheck n t = none := by
  have hsum := length_spacedText t
  have hle := sepCount_spacedText_le t
  exact textCheck_passes hlen hseps hchars (by omega) (by omega)

/-- The rendered characters of a text that passes its checks fit (R236). -/
theorem textChars_fit_of_textCheck {n : Nat} {t : List Byte} (h : textCheck n t = none) : (textChars t).length ≤ n := by
  have hsum := length_spacedText t
  simp only [textCheck] at h
  split_ifs at h
  omega

section
variable {t : List Byte} {s : State} {cfg : Cfg} {buf : List Byte}

/-- With no writer a SETSTR that passes its checks runs to its end in one step (log 1). -/
theorem exec_setstr_runOut (hlife : s.life = .constructed cfg buf) (hasync : s.config.asyncWriter = false)
    (hcheck : textCheck cfg.digits t = none) :
    exec (.setstr t) s = .next (s.startRender 0 (textChars t) (textDots t)).runOut := by
  rw [exec_setstr_of_check_passes hlife hcheck, State.settle_of_no_writer]
  rw [(s.startRender_frame _ _ _).config, hasync]
end

/-- Settles O27: the glyphs are written and then the dots merged. -/
theorem setstrRendersText : Obligations.SetstrRendersText := by
  unfold Obligations.SetstrRendersText
  intro t s cfg buf hlife hbuf hasync hlen hseps hchars hrendered hglyphs
  refine ⟨dotsMerged (textDots t) (glyphsAt 0 (textChars t) buf), ?exec, by simp [hbuf], fun d hd => ?shown⟩
  case exec =>
    have hrun := State.runOut_startRender_append hlife 0 (textChars t) [] (textDots t) hglyphs
    rw [List.append_nil, State.startRender, State.runOut_startDots rfl, State.finishTask_eq] at hrun
    rw [exec_setstr_runOut hlife hasync (textCheck_of_textChars_fit hlen hseps hchars hrendered), hrun]
    rfl
  case shown =>
    rw [← hbuf] at hd
    rw [getD_dotsMerged _ _ _ (by rwa [length_glyphsAt]), getD_glyphsAt _ _ _ _ hd]
    by_cases hin : d < (textChars t).length
    · rw [if_pos hin, if_pos (by omega), Nat.sub_zero]
      rfl
    · have hdot : d ∉ textDots t := fun hmem => hin (textDots_lt hmem)
      rw [if_neg hin, if_neg (by omega), if_neg hdot]
      simp

/-- Settles O28: the glyphs before the character are written, and its own step answers the error. -/
theorem setstrStopsAtUnsupported : Obligations.SetstrStopsAtUnsupported := by
  unfold Obligations.SetstrStopsAtUnsupported
  intro t done todo c s cfg buf hlife hbuf hasync hlen hseps hchars hrendered htext hdone hc
  refine ⟨glyphsAt 0 done buf, ?exec, by simp [hbuf], fun d hd => ?shown⟩
  case exec =>
    have hrun := State.runOut_startRender_append hlife 0 done (c :: todo) (textDots t) hdone
    rw [State.runOut_startRender_no_glyph hc, State.abortTask_eq] at hrun
    rw [exec_setstr_runOut hlife hasync (textCheck_of_textChars_fit hlen hseps hchars hrendered), htext, hrun]
    rfl
  case shown =>
    rw [← hbuf] at hd
    rw [getD_glyphsAt _ _ _ _ hd]
    exact if_congr (by omega) rfl rfl

end Sys2Proof.Machine
end

section
/-! Proofs: what a buffer command writes, where it stops and what it answers (spec/42_buffer_ops.md,
spec/20_memory.md section 7, spec/10_state.md section 6). -/
namespace Sys2Proof.Machine

/-! ### The entries a command in progress may write (R211, R242) -/

section
variable (s : State)

@[simp] theorem State.finishTask_life : s.finishTask.life = s.life := by simp [State.finishTask]

@[simp] theorem State.abortTask_life (e : Status) (v : Value) : (s.abortTask e v).life = s.life := by
  simp [State.abortTask]

@[simp] theorem State.startDots_life (dots : List Nat) : (s.startDots dots).life = s.life := by
  cases dots <;> simp [State.startDots]

@[simp] theorem State.startRender_life (d : Nat) (chars : List Byte) (dots : List Nat) :
    (s.startRender d chars dots).life = s.life := by
  cases chars <;> simp [State.startRender]

variable {s}

theorem State.buf_congr {t : State} (h : t.life = s.life) : t.buf = s.buf := by simp only [State.buf, h]

theorem State.startDots_inRange {n : Nat} {dots : List Nat} (h : ∀ d ∈ dots, d < n) :
    (s.startDots dots).task.InRange n := by
  cases dots with
  | nil => rw [State.startDots, State.finishTask_task]; trivial
  | cons d ds => rw [State.startDots, State.setTask_task]; exact h

theorem State.startRender_inRange {n d : Nat} {chars : List Byte} {dots : List Nat} (hchars : d + chars.length ≤ n)
    (hdots : ∀ d ∈ dots, d < n) : (s.startRender d chars dots).task.InRange n := by
  cases chars with
  | nil => exact State.startDots_inRange hdots
  | cons c cs => rw [State.startRender, State.setTask_task]; exact ⟨hchars, hdots⟩

/-- An atomic step of a command that writes only entries below `n` writes none from `n` on, and leaves such
a command. -/
theorem resumeTask_inRange {n : Nat} (h : s.task.InRange n) :
    (resumeTask s).task.InRange n ∧ ∀ j, n ≤ j → (resumeTask s).buf[j]? = s.buf[j]? := by
  have write_below {d : Nat} {v : Byte} {u : State} (hd : d < n) (hu : u.life = (s.bufWrite d v).life) :
      ∀ j, n ≤ j → u.buf[j]? = s.buf[j]? := fun j hj => by
    rw [State.buf_congr hu, State.bufWrite_buf, List.getElem?_set_ne (by omega)]
  unfold resumeTask
  split
  · exact ⟨h, fun _ _ => rfl⟩
  · rename_i i g v htask
    rw [htask] at h
    obtain ⟨hi, -⟩ := h
    exact ⟨by rw [State.finishTask_task]; trivial, write_below hi (State.finishTask_life _)⟩
  · rename_i d dots htask
    rw [htask] at h
    obtain ⟨-, hdots⟩ := h
    exact ⟨State.startDots_inRange hdots, fun j _ => by rw [State.buf_congr (s.startDots_life _)]⟩
  · rename_i d c cs dots htask
    rw [htask] at h
    obtain ⟨hchars, hdots⟩ := h
    rw [List.length_cons] at hchars
    unfold State.renderChar
    split
    · exact ⟨by rw [State.abortTask_task]; trivial, fun j _ => by rw [State.buf_congr (s.abortTask_life _ _)]⟩
    · exact ⟨State.startRender_inRange (by omega) hdots, write_below (by omega) (State.startRender_life _ _ _ _)⟩
  · exact ⟨by rw [State.finishTask_task]; trivial, fun j _ => by rw [State.buf_congr s.finishTask_life]⟩
  · rename_i d ds htask
    rw [htask] at h
    exact ⟨by rw [State.setTask_task]; exact ⟨h d List.mem_cons_self, fun e he => h e (List.mem_cons_of_mem d he)⟩,
      fun j _ => by rw [State.buf_congr (s.setTask_life _)]⟩
  · rename_i d v ds htask
    rw [htask] at h
    obtain ⟨hd, hds⟩ := h
    exact ⟨State.startDots_inRange hds, write_below hd (State.startDots_life _ _)⟩

theorem drain_inRange {n : Nat} (k : Nat) (h : s.task.InRange n) :
    (drain k s).task.InRange n ∧ ∀ j, n ≤ j → (drain k s).buf[j]? = s.buf[j]? := by
  induction k generalizing s with
  | zero => exact ⟨h, fun _ _ => rfl⟩
  | succ k ih =>
    by_cases hnone : s.task = .none
    · rw [drain_of_none _ _ hnone]
      exact ⟨h, fun _ _ => rfl⟩
    · rw [drain_succ _ _ hnone]
      obtain ⟨hrange, hbuf⟩ := resumeTask_inRange h
      obtain ⟨hrange', hbuf'⟩ := ih hrange
      exact ⟨hrange', fun j hj => (hbuf' j hj).trans (hbuf j hj)⟩

theorem State.settle_inRange {n : Nat} (h : s.task.InRange n) :
    s.settle.task.InRange n ∧ ∀ j, n ≤ j → s.settle.buf[j]? = s.buf[j]? := by
  unfold State.settle
  split
  · exact ⟨h, fun _ _ => rfl⟩
  · exact drain_inRange _ h
end

/-! ### The entries each command leaves unchanged (R211, R241) -/

section
variable {s t : State} {i g j : Nat} {c : Byte}

theorem exec_lookup_buf_task (h : exec (.lookup c) s = .next t) : t.buf = s.buf ∧ t.task = s.task := by
  cases hc : glyph c with
  | none => rw [exec_lookup_of_no_glyph s hc] at h; cases h; exact ⟨rfl, rfl⟩
  | some m => rw [exec_lookup_of_glyph s hc] at h; cases h; exact ⟨rfl, rfl⟩

theorem exec_refresh_life_task (h : exec .refresh s = .next t) : t.life = s.life ∧ t.task = s.task := by
  obtain ⟨-, ⟨-, rfl⟩ | ⟨cfg, buf, -, rfl⟩⟩ := execRefresh_cases h
  · exact ⟨rfl, rfl⟩
  · exact ⟨rfl, rfl⟩

/-- SETDIGIT and SETCOMMA answer, or replace the entry they name. -/
theorem exec_setDigit_buf_task {instr : Instr} (hinstr : instr = .setcomma i ∨ instr = .setdigit i c)
    (h : exec instr s = .next t) (hj : j ≠ i) : t.buf[j]? = s.buf[j]? ∧ t.task = s.task := by
  have hbuffer : bufferCommand instr = true := by obtain rfl | rfl := hinstr <;> rfl
  obtain ⟨e, d, v, rfl⟩ | ⟨cfg, buf, -, ⟨k, m, hk, -, rfl⟩ | ⟨k, g, hk, -⟩ | ⟨text, hk, -⟩⟩ :=
    exec_buffer_cases hbuffer h
  · exact ⟨rfl, rfl⟩
  · obtain rfl : k = i := by obtain rfl | rfl := hinstr <;> simp_all
    refine ⟨?_, by simp⟩
    rw [State.buf_congr (State.answer_life _ 0), State.bufWrite_buf, List.getElem?_set_ne hj.symm]
  · obtain rfl | rfl := hinstr <;> cases hk
  · obtain rfl | rfl := hinstr <;> cases hk

/-- The read and the write of SETSEG leave the other entries, whether they are one step or two. -/
theorem exec_setseg_buf (h : exec (.setseg i g) s = .next t) (hj : j ≠ i) : t.buf[j]? = s.buf[j]? := by
  obtain ⟨e, d, v, rfl⟩ | ⟨cfg, buf, -, ⟨k, m, hk, -⟩ | ⟨k, g', hk, -, -, rfl⟩ | ⟨text, hk, -⟩⟩ :=
    exec_buffer_cases rfl h
  · rfl
  · obtain hk | ⟨c, hk⟩ := hk <;> cases hk
  · cases hk
    cases hasync : s.config.asyncWriter with
    | true =>
      rw [State.settle_of_writer (by simpa using hasync), State.buf_congr (s.setTask_life _)]
    | false =>
      rw [State.settle_of_no_writer (by simpa using hasync), State.runOut_segWrite,
        State.buf_congr (State.finishTask_life _), State.bufWrite_buf, List.getElem?_set_ne hj.symm]
  · cases hk

theorem exec_setstr_buf {text : List Byte} (h : exec (.setstr text) s = .next t) (hj : (textChars text).length ≤ j) :
    t.buf[j]? = s.buf[j]? := by
  obtain ⟨e, d, v, rfl⟩ | ⟨cfg, buf, -, ⟨k, m, hk, -⟩ | ⟨k, g, hk, -⟩ | ⟨text', hk, -, rfl⟩⟩ :=
    exec_buffer_cases rfl h
  · rfl
  · obtain hk | ⟨c, hk⟩ := hk <;> cases hk
  · cases hk
  · cases hk
    have hrange : (s.startRender 0 (textChars text) (textDots text)).task.InRange (textChars text).length :=
      State.startRender_inRange (by omega) fun d hd => textDots_lt hd
    obtain ⟨-, hbuf⟩ := State.settle_inRange hrange
    rw [hbuf j hj, State.buf_congr (s.startRender_life _ _ _)]
end

/-- Settles O48: one lemma for each command. -/
theorem otherEntriesUnchanged : Obligations.OtherEntriesUnchanged := by
  unfold Obligations.OtherEntriesUnchanged
  exact fun s t i g j c text => ⟨exec_lookup_buf_task, exec_refresh_life_task,
    exec_setDigit_buf_task (.inr rfl), exec_setDigit_buf_task (c := c) (.inl rfl), exec_setseg_buf, exec_setstr_buf⟩

/-! ### With no writer a command ends in its own step (log 1) -/

section
variable {s t : State}

/-- No command passes the turn on. -/
theorem exec_turn {i : Instr} (h : exec i s = .next t) : t.turn = s.turn := by
  obtain hframe | ⟨-, -, -, -, -, rfl⟩ | ⟨pol, on, dly, digs, segs, -, -, -, -, -, rfl⟩ := exec_cases h
  · exact hframe.turn
  · rfl
  · rw [State.construct_answer]

theorem exec_task {i : Instr} (hasync : s.config.asyncWriter = false) (htask : s.task = .none)
    (h : exec i s = .next t) : t.task = .none := by
  have hsettle {u : State} (hu : BufferFrame s u) : u.settle.task = .none :=
    u.settle_task (by rw [hu.config, hasync])
  cases hi : bufferCommand i with
  | true =>
    obtain ⟨e, d, v, rfl⟩ | ⟨cfg, buf, -, ⟨k, m, -, -, rfl⟩ | ⟨k, g, -, -, -, rfl⟩ | ⟨text, -, -, rfl⟩⟩ :=
      exec_buffer_cases hi h
    · exact htask
    · simpa using htask
    · exact hsettle (s.setTask_frame _)
    · exact hsettle (s.startRender_frame _ _ _)
  | false =>
    cases i with
    | refresh =>
      obtain ⟨-, hstays⟩ := exec_refresh_life_task h
      exact hstays.trans htask
    | config pol on dly digs segs =>
      obtain ⟨-, ⟨e, v, rfl⟩ | ⟨-, -, -, rfl⟩⟩ := execConfig_cases h
      · exact htask
      · rw [State.construct_answer]; exact htask
    | _ => cases hi
end

/-- Settles O32: a phase leaves the caller where it is, and a command that starts with none in progress ends. -/
theorem noWriterNothingPending : Obligations.NoWriterNothingPending := by
  unfold Obligations.NoWriterNothingPending
  intro s t hasync htask h
  obtain ⟨u, hu, hmove⟩ := step_moves h
  have hturn : u.turn = .caller := hu.turn.trans (s.beginTurn_caller hasync)
  have hnone : u.task = .none := by rw [State.task_of_caller hturn, hu.callerTask, htask]
  obtain ⟨d, p, -, hphase⟩ | ⟨-, hne, -⟩ | ⟨-, -, rfl⟩ | ⟨-, -, e, v, rfl⟩ | ⟨-, -, i, -, hexec⟩ := hmove
  · obtain ⟨-, hstays⟩ := runPhase_callerPort_callerTask hphase
    rw [hstays, hu.callerTask, htask]
  · exact absurd hnone hne
  · rw [← State.task_of_caller hturn, hnone]
  · rw [State.raise_callerTask, ← State.task_of_caller hturn, hnone]
  · have hdone := exec_task (by rw [hu.config, hasync]) hnone hexec
    rwa [State.task_of_caller ((exec_turn hexec).trans hturn)] at hdone

/-! ### One response to a command (R49) -/

/-- `t` is `s` with one response more on the trace. -/
def AnswersOnce (s t : State) : Prop := ∃ r, t.trace = s.trace ++ [.response s.turn r]

/-- `t` comes after atomic steps of a command that started at `s`: it has answered, or it is in progress and has not. -/
def Advances (s t : State) : Prop :=
  t.turn = s.turn ∧ ((t.task ≠ .none ∧ t.trace = s.trace) ∨ (t.task = .none ∧ AnswersOnce s t))

section
variable {s t u : State}

theorem State.finishTask_advances : Advances s s.finishTask :=
  ⟨s.finishTask_frame.turn, .inr ⟨s.finishTask_task, _, by rw [State.finishTask_eq, State.setTask_trace]; rfl⟩⟩

theorem State.abortTask_advances (e : Status) (v : Value) : Advances s (s.abortTask e v) :=
  ⟨(s.abortTask_frame e v).turn,
    .inr ⟨s.abortTask_task e v, _, by rw [State.abortTask_eq, State.setTask_trace]; rfl⟩⟩

theorem State.setTask_advances {task : Task} (h : task ≠ .none) : Advances s (s.setTask task) :=
  ⟨s.setTask_turn task, .inl ⟨by rwa [State.setTask_task], s.setTask_trace task⟩⟩

theorem State.startDots_advances (dots : List Nat) : Advances s (s.startDots dots) := by
  cases dots with
  | nil => exact State.finishTask_advances
  | cons d ds => exact State.setTask_advances nofun

theorem State.startRender_advances (d : Nat) (chars : List Byte) (dots : List Nat) :
    Advances s (s.startRender d chars dots) := by
  cases chars with
  | nil => exact State.startDots_advances dots
  | cons c cs => exact State.setTask_advances nofun

/-- Writing the buffer first is not seen. -/
theorem Advances.of_bufWrite {i : Nat} {v : Byte} (h : Advances (s.bufWrite i v) t) : Advances s t := by
  simpa only [Advances, AnswersOnce, State.bufWrite_turn, State.bufWrite_trace] using h

theorem resumeTask_advances (h : s.task ≠ .none) : Advances s (resumeTask s) := by
  unfold resumeTask
  split
  · contradiction
  · exact State.finishTask_advances.of_bufWrite
  · exact State.startDots_advances _
  · unfold State.renderChar
    split
    · exact State.abortTask_advances _ _
    · exact (State.startRender_advances _ _ _).of_bufWrite
  · exact State.finishTask_advances
  · exact State.setTask_advances nofun
  · exact (State.startDots_advances _).of_bufWrite

theorem Advances.trans (h : Advances s t) (ht : t.task ≠ .none) (k : Advances t u) : Advances s u := by
  obtain ⟨hturn, ⟨-, htrace⟩ | ⟨hnone, -⟩⟩ := h
  · simpa only [Advances, AnswersOnce, hturn, htrace] using k
  · exact absurd hnone ht

theorem drain_advances (k : Nat) (h : Advances s t) : Advances s (drain k t) := by
  induction k generalizing t with
  | zero => exact h
  | succ k ih =>
    by_cases hnone : t.task = .none
    · rwa [drain_of_none _ _ hnone]
    · rw [drain_succ _ _ hnone]
      exact ih (h.trans hnone (resumeTask_advances hnone))

theorem Advances.runOut (h : Advances s t) : AnswersOnce s t.runOut := by
  obtain ⟨-, ⟨hne, -⟩ | ⟨-, hanswer⟩⟩ := drain_advances t.task.size h
  · exact absurd t.runOut_task hne
  · exact hanswer

/-- With no writer a buffer command ends in its step with its one response. -/
theorem exec_buffer_answers {i : Instr} (hi : bufferCommand i = true) (hasync : s.config.asyncWriter = false)
    (h : exec i s = .next t) : AnswersOnce s t := by
  have hsettle {u : State} (hu : BufferFrame s u) (hadvances : Advances s u) : AnswersOnce s u.settle := by
    rw [State.settle_of_no_writer (by rw [hu.config, hasync])]
    exact hadvances.runOut
  obtain ⟨e, d, v, rfl⟩ | ⟨cfg, buf, -, ⟨k, m, -, -, rfl⟩ | ⟨k, g, -, -, -, rfl⟩ | ⟨text, -, -, rfl⟩⟩ :=
    exec_buffer_cases hi h
  · exact ⟨_, rfl⟩
  · exact ⟨_, by rw [State.answer_trace, State.bufWrite_trace, State.bufWrite_turn]⟩
  · exact hsettle (s.setTask_frame _) (State.setTask_advances nofun)
  · exact hsettle (s.startRender_frame _ _ _) (State.startRender_advances _ _ _)
end

/-- Settles O59: a buffer command's atomic steps answer once, and CONFIG answers after its calls. -/
theorem oneResponsePerCommand : Obligations.OneResponsePerCommand := by
  unfold Obligations.OneResponsePerCommand
  intro i s t hasync htask hrefresh h
  cases hi : bufferCommand i with
  | true =>
    obtain ⟨r, hr⟩ := exec_buffer_answers hi hasync h
    exact ⟨[], r, by rw [hr, List.append_nil], rfl, fun _ => rfl⟩
  | false =>
    cases i with
    | config pol on dly digs segs =>
      obtain ⟨-, ⟨e, v, rfl⟩ | ⟨-, -, -, rfl⟩⟩ := execConfig_cases h
      · exact ⟨[], _, by rw [State.raise_trace, List.append_nil], rfl, nofun⟩
      · exact ⟨configCalls _, _, by rw [State.construct_answer]; rfl, configCalls_isCall _, nofun⟩
    | refresh => exact absurd rfl hrefresh
    | _ => cases hi

end Sys2Proof.Machine
end

section
/-! Proofs: what the commands do not read: the trace, and whether a writer exists (spec/10_state.md section 6,
spec/20_memory.md section 7). -/
namespace Sys2Proof.Machine

theorem State.setTask_of_caller {s : State} (h : s.turn = .caller) (task : Task) :
    s.setTask task = { s with callerTask := task } := by
  simp only [State.setTask, h]

theorem State.setTask_of_writer {s : State} (h : s.turn = .writer) (task : Task) :
    s.setTask task = { s with writerTask := task } := by
  simp only [State.setTask, h]

/-! ### Changes of the state that no command sees -/

/-- `φ` changes nothing that a command reads, and it does not matter whether it is applied before or after one of the
writes that commands are made of. -/
structure Transparent (φ : State → State) : Prop where
  life : ∀ s, (φ s).life = s.life
  turn : ∀ s, (φ s).turn = s.turn
  callerTask : ∀ s, (φ s).callerTask = s.callerTask
  writerTask : ∀ s, (φ s).writerTask = s.writerTask
  maxDigits : ∀ s, (φ s).config.maxDigits = s.config.maxDigits
  lineCount : ∀ s, (φ s).config.lineCount = s.config.lineCount
  heldElsewhere : ∀ s, (φ s).config.heldElsewhere = s.config.heldElsewhere
  emit : ∀ s e, φ (s.emit e) = (φ s).emit e
  setLife : ∀ s life, φ { s with life := life } = { φ s with life := life }
  setFsm : ∀ s fsm, φ { s with fsm := fsm } = { φ s with fsm := fsm }
  setCallerTask : ∀ s task, φ { s with callerTask := task } = { φ s with callerTask := task }
  setWriterTask : ∀ s task, φ { s with writerTask := task } = { φ s with writerTask := task }

namespace Transparent

variable {φ : State → State} (hφ : Transparent φ) (s : State)
include hφ

/-! The operations of a command, from the writes they are made of. -/

theorem task : (φ s).task = s.task := by
  simp only [State.task, hφ.turn, hφ.callerTask, hφ.writerTask]

theorem buf : (φ s).buf = s.buf := State.buf_congr (hφ.life s)

theorem respond (r : Response) : φ (s.respond r) = (φ s).respond r := by
  simp only [State.respond, hφ.emit, hφ.turn]

theorem answer (d : Byte) : φ (s.answer d) = (φ s).answer d := hφ.respond s _

theorem raise (e : Status) (v : Value) : φ (s.raise e v) = (φ s).raise e v := hφ.respond s _

theorem setTask (task : Task) : φ (s.setTask task) = (φ s).setTask task := by
  cases hturn : s.turn with
  | caller =>
    rw [State.setTask_of_caller hturn, State.setTask_of_caller ((hφ.turn s).trans hturn), hφ.setCallerTask]
  | writer =>
    rw [State.setTask_of_writer hturn, State.setTask_of_writer ((hφ.turn s).trans hturn), hφ.setWriterTask]

theorem bufWrite (i : Nat) (v : Byte) : φ (s.bufWrite i v) = (φ s).bufWrite i v := by
  cases hlife : s.life <;> simp only [State.bufWrite, hφ.life, hlife]
  exact hφ.setLife s _

theorem emitAll (es : List Event) : φ (s.emitAll es) = (φ s).emitAll es := by
  induction es generalizing s with
  | nil => rfl
  | cons e es ih => rw [State.emitAll_cons, State.emitAll_cons, ih, hφ.emit]

theorem construct (cfg : Cfg) : φ (s.construct cfg) = (φ s).construct cfg := by
  let life := Life.constructed cfg (List.replicate cfg.digits 0)
  rw [State.construct, State.construct, ← hφ.emitAll]
  exact (hφ.setFsm { s.emitAll (configCalls cfg) with life := life } .idle).trans
    (congrArg (fun u : State => { u with fsm := .idle }) (hφ.setLife (s.emitAll (configCalls cfg)) life))

theorem advance (f : Fsm) : φ (s.advance f) = (φ s).advance f := by
  cases f with
  | idle => exact (hφ.answer _ 0).trans (congrArg (State.answer 0) (hφ.setFsm s .idle))
  | busy d p => exact hφ.setFsm s _

/-! The atomic steps. -/

theorem finishTask : φ s.finishTask = (φ s).finishTask := by
  rw [State.finishTask, State.finishTask, hφ.answer, hφ.setTask]

theorem abortTask (e : Status) (v : Value) : φ (s.abortTask e v) = (φ s).abortTask e v := by
  rw [State.abortTask, State.abortTask, hφ.raise, hφ.setTask]

theorem startDots (dots : List Nat) : φ (s.startDots dots) = (φ s).startDots dots := by
  cases dots with
  | nil => exact hφ.finishTask s
  | cons d ds => exact hφ.setTask s _

theorem startRender (d : Nat) (chars : List Byte) (dots : List Nat) :
    φ (s.startRender d chars dots) = (φ s).startRender d chars dots := by
  cases chars with
  | nil => exact hφ.startDots s dots
  | cons c cs => exact hφ.setTask s _

theorem renderChar (d : Nat) (c : Byte) (cs : List Byte) (dots : List Nat) :
    φ (s.renderChar d c cs dots) = (φ s).renderChar d c cs dots := by
  unfold State.renderChar
  cases glyph c with
  | none => exact hφ.abortTask s _ _
  | some m => exact (hφ.startRender _ _ _ _).trans (congrArg _ (hφ.bufWrite s d m))

theorem resumeTask : φ (resumeTask s) = Machine.resumeTask (φ s) := by
  unfold Machine.resumeTask
  rw [hφ.task]
  split
  · rfl
  · rw [hφ.finishTask, hφ.bufWrite]
  · exact hφ.startDots s _
  · exact hφ.renderChar s _ _ _ _
  · exact hφ.finishTask s
  · simp only [hφ.setTask, State.bufRead, hφ.buf]
  · rw [hφ.startDots, hφ.bufWrite]

theorem drain (k : Nat) : φ (drain k s) = Machine.drain k (φ s) := by
  induction k generalizing s with
  | zero => rfl
  | succ k ih =>
    by_cases hnone : s.task = .none
    · rw [drain_of_none _ _ hnone, drain_of_none _ _ (by rw [hφ.task, hnone])]
    · rw [drain_succ _ _ hnone, drain_succ _ _ (by rwa [hφ.task]), ih, hφ.resumeTask]

theorem runOut : φ s.runOut = (φ s).runOut := by
  rw [State.runOut, State.runOut, hφ.task, hφ.drain]

end Transparent

/-! ### Commands under such a change -/

/-- Apply `φ` to the next state, if there is one. -/
def onNext (φ : State → State) : Host.Outcome State Fault Refusal → Host.Outcome State Fault Refusal
  | .next s => .next (φ s)
  | .fault r => .fault r
  | .refused r => .refused r

theorem onNext_eq_next {φ : State → State} {o : Host.Outcome State Fault Refusal} {t : State}
    (h : onNext φ o = .next t) : ∃ u, o = .next u ∧ φ u = t := by
  cases o with
  | next u => cases h; exact ⟨u, rfl, rfl⟩
  | fault r => cases h
  | refused r => cases h

theorem runPhase_transparent {φ : State → State} (hφ : Transparent φ) (d : Nat) (p : Phase) (s : State) :
    runPhase d p (φ s) = onNext φ (runPhase d p s) := by
  cases hlife : s.life with
  | unconstructed => simp only [runPhase, hφ.life, hlife, onNext]
  | constructed cfg buf =>
    cases hl : cfg.dig[d]? with
    | none => simp only [runPhase, hφ.life, hlife, hl, onNext]
    | some l => simp only [runPhase, hφ.life, hlife, hl, onNext, hφ.advance, hφ.emit]

section
variable {φ ψ : State → State} {s : State}

/-- A command does the same after `φ`. `ψ` is what `φ` makes of the state it ends in: `φ` itself but where the atomic
steps of the command are still to come. -/
theorem exec_transparent (hφ : Transparent φ) (hdone : ∀ u : State, u.task = .none → ψ u = φ u)
    (hsettle : ∀ u : State, u.config = s.config → ψ u.settle = (φ u).settle) (htask : s.task = .none) (i : Instr) :
    exec i (φ s) = onNext ψ (exec i s) := by
  have hraise (e : Status) (v : Value) : ψ (s.raise e v) = (φ s).raise e v :=
    (hdone (s.raise e v) htask).trans (hφ.raise s e v)
  have hanswer (d : Byte) : ψ (s.answer d) = (φ s).answer d := (hdone (s.answer d) htask).trans (hφ.answer s d)
  have hsetDigit (cfg : Cfg) (k : Nat) (c : Byte) : ψ (s.setDigit cfg k c) = (φ s).setDigit cfg k c := by
    unfold State.setDigit
    split
    · exact hraise _ _
    · cases glyph c with
      | none => exact hraise _ _
      | some m => rw [hdone _ (by simpa using htask), hφ.answer, hφ.bufWrite]
  cases i with
  | lookup c =>
    simp only [exec, execLookup]
    cases glyph c <;> simp only [onNext, hraise, hanswer]
  | setdigit k c =>
    cases hlife : s.life <;> simp only [exec, execSetdigit, hφ.life, hlife, onNext, hraise, hsetDigit]
  | setcomma k =>
    cases hlife : s.life <;> simp only [exec, execSetcomma, hφ.life, hlife, onNext, hraise, hsetDigit]
  | setseg k g =>
    cases hlife : s.life with
    | unconstructed => simp only [exec, execSetseg, hφ.life, hlife, onNext, hraise]
    | constructed cfg buf =>
      simp only [exec, execSetseg, hφ.life, hlife, State.bufRead, hφ.buf]
      split
      · simp only [onNext, hraise]
      · split
        · simp only [onNext, hraise]
        · rw [onNext, hsettle _ (s.setTask_config _), hφ.setTask]
  | setstr text =>
    cases hlife : s.life with
    | unconstructed => simp only [exec, execSetstr, hφ.life, hlife, onNext, hraise]
    | constructed cfg buf =>
      cases hcheck : textCheck cfg.digits text with
      | some failure => simp only [exec, execSetstr, hφ.life, hlife, hcheck, onNext, hraise]
      | none =>
        simp only [exec, execSetstr, hφ.life, hlife, hcheck, onNext]
        rw [hsettle _ (s.startRender_frame _ _ _).config, hφ.startRender]
  | refresh =>
    cases hturn : s.turn with
    | writer => simp only [exec, execRefresh, hφ.turn, hturn, onNext]
    | caller =>
      cases hlife : s.life with
      | unconstructed => simp only [exec, execRefresh, hφ.turn, hturn, hφ.life, hlife, onNext, hraise]
      | constructed cfg buf =>
        have hstart : ψ { s with fsm := .busy 0 .digOn } = { φ s with fsm := .busy 0 .digOn } :=
          (hdone { s with fsm := .busy 0 .digOn } htask).trans (hφ.setFsm s _)
        rw [exec_refresh_of_constructed hturn hlife,
          exec_refresh_of_constructed ((hφ.turn s).trans hturn) ((hφ.life s).trans hlife), onNext, hstart]
  | config pol on dly digs segs =>
    cases hturn : s.turn with
    | writer => simp only [exec, execConfig, hφ.turn, hturn, onNext]
    | caller =>
      cases hlife : s.life with
      | constructed cfg buf => simp only [exec, execConfig, hφ.turn, hturn, hφ.life, hlife, onNext, hraise]
      | unconstructed =>
        simp only [exec, execConfig, hφ.turn, hturn, hφ.life, hlife, hφ.maxDigits, hφ.lineCount, hφ.heldElsewhere]
        cases configCheck s.config.maxDigits pol on dly digs segs with
        | some k => simp only [onNext, hraise]
        | none =>
          dsimp only
          split
          · rfl
          · split
            · rfl
            · have hnone : ((s.construct (configOf pol on dly digs segs)).answer 0).task = .none := by
                rw [State.construct_answer]; exact htask
              rw [onNext, hdone _ hnone, hφ.answer, hφ.construct]
end

/-! ### The atomic steps of a command add up (R76, R80) -/

/-- The same block with or without a writer agent. -/
def State.withWriter (writer : Bool) (s : State) : State :=
  { s with config := { s.config with asyncWriter := writer } }

theorem transparent_withWriter (writer : Bool) : Transparent (State.withWriter writer) := by
  constructor <;> intros <;> rfl

/-- No command writes a parameter (R12). -/
theorem exec_config {i : Instr} {s t : State} (h : exec i s = .next t) : t.config = s.config := by
  obtain hframe | ⟨-, -, -, -, -, rfl⟩ | ⟨pol, on, dly, digs, segs, -, -, -, -, -, rfl⟩ := exec_cases h
  · exact hframe.config
  · rfl
  · rw [State.construct_answer]

/-- Settles O31: without a writer a command does what it does with one, but that its atomic steps are run out. -/
theorem atomicStepsAddUp : Obligations.AtomicStepsAddUp := by
  unfold Obligations.AtomicStepsAddUp
  intro i s t htask h
  have hφ := transparent_withWriter false
  have hexec : exec i ((s.withWriter true).withWriter false) =
      onNext (fun u => u.runOut.withWriter false) (exec i (s.withWriter true)) := by
    refine exec_transparent (s := s.withWriter true) hφ (fun u hu => ?done) (fun u hu => ?settle) htask i
    case done => rw [State.runOut_of_task_none hu]
    case settle =>
      rw [State.settle_of_writer (by rw [hu]; rfl), State.settle_of_no_writer rfl]
      exact hφ.runOut u
  have hconfig : t.runOut.config = (s.withWriter true).config := by
    rw [State.runOut, (drain_frame _ t).config]
    exact exec_config h
  rw [show exec i (s.withWriter true) = .next t from h] at hexec
  refine hexec.trans (congrArg Host.Outcome.next ?_)
  show t.runOut.withWriter false = _
  rw [State.withWriter, hconfig]
  rfl

/-! ### The trace is never read (R50) -/

/-- `s` with a longer past. -/
def State.withPast (past : List Event) (s : State) : State := { s with trace := past ++ s.trace }

section
variable (past : List Event)

theorem transparent_withPast : Transparent (State.withPast past) where
  emit s e := by simp [State.withPast, State.emit]
  life _ := rfl
  turn _ := rfl
  callerTask _ := rfl
  writerTask _ := rfl
  maxDigits _ := rfl
  lineCount _ := rfl
  heldElsewhere _ := rfl
  setLife _ _ := rfl
  setFsm _ _ := rfl
  setCallerTask _ _ := rfl
  setWriterTask _ _ := rfl

variable (s : State)

theorem State.beginTurn_withPast : (s.withPast past).beginTurn = s.beginTurn.withPast past := by
  unfold State.beginTurn State.withPast
  cases s.sched <;> rfl

theorem State.setPending_withPast (ws : List Word) :
    (s.withPast past).setPending ws = (s.setPending ws).withPast past := by
  unfold State.setPending State.withPast
  cases s.turn <;> rfl

theorem State.settle_withPast : s.settle.withPast past = (s.withPast past).settle := by
  cases h : s.config.asyncWriter with
  | true => rw [State.settle_of_writer h, State.settle_of_writer (s := s.withPast past) h]
  | false =>
    rw [State.settle_of_no_writer h, State.settle_of_no_writer (s := s.withPast past) h]
    exact (transparent_withPast past).runOut s

theorem step_withPast : step (s.withPast past) = onNext (State.withPast past) (step s) := by
  have hφ := transparent_withPast past
  have hbegin := s.beginTurn_withPast past
  have hpass : (s.withPast past).beginTurn.pass = s.beginTurn.pass := by rw [hbegin]; rfl
  have htask : (s.withPast past).beginTurn.task = s.beginTurn.task := by rw [hbegin]; rfl
  have hpending : (s.withPast past).beginTurn.pending = s.beginTurn.pending := by rw [hbegin]; rfl
  cases hp : s.beginTurn.pass with
  | busy d p =>
    rw [step_of_pass_busy hp, step_of_pass_busy (hpass.trans hp), hbegin, runPhase_transparent hφ]
  | idle =>
    have hp' := hpass.trans hp
    by_cases ht : s.beginTurn.task = .none
    · have ht' := htask.trans ht
      cases hd : decode s.beginTurn.pending with
      | incomplete =>
        rw [step_of_incomplete hp ht hd, step_of_incomplete hp' ht' (by rw [hpending, hd]), hbegin]
        rfl
      | illegal op rest =>
        rw [step_illegal hp ht hd, step_illegal hp' ht' (by rw [hpending, hd]), hbegin, State.setPending_withPast]
        exact congrArg _ (hφ.raise _ _ _).symm
      | command i rest =>
        rw [step_of_command hp ht hd, step_of_command hp' ht' (by rw [hpending, hd]), hbegin,
          State.setPending_withPast]
        exact exec_transparent hφ (fun _ _ => rfl) (fun u _ => u.settle_withPast past)
          (by rw [State.setPending_task, ht]) i
    · rw [step_of_task hp ht, step_of_task hp' (by rwa [htask]), hbegin]
      exact congrArg _ (hφ.resumeTask _).symm
end

/-- Settles O58: a state is the same state with an empty trace, its past put in front. -/
theorem traceIsNeverRead : Obligations.TraceIsNeverRead := by
  unfold Obligations.TraceIsNeverRead
  intro s t h
  have hpast (past : List Event) :
      ({ s with trace := past } : State) = ({ s with trace := [] } : State).withPast past := by
    rw [State.withPast, List.append_nil]
  have hstep : step (({ s with trace := [] } : State).withPast s.trace) = .next t := by rw [← hpast]; exact h
  rw [step_withPast] at hstep
  obtain ⟨u, hu, rfl⟩ := onNext_eq_next hstep
  refine ⟨u.trace, rfl, fun past => ?_⟩
  rw [hpast, step_withPast, hu]
  rfl

end Sys2Proof.Machine
end

section
/-! Proofs: refusals, faults and the invariant of the state (spec/60_exceptions.md, spec/10_state.md). -/
namespace Sys2Proof.Machine

/-! ### What is refused (R80, R189, R335) -/

section
variable {i : Instr} {s : State}

/-- The five buffer commands always go on. -/
theorem exec_buffer_next (hi : bufferCommand i = true) : ∃ t, exec i s = .next t := by
  cases i with
  | lookup c =>
    cases hc : glyph c with
    | none => exact ⟨_, exec_lookup_of_no_glyph s hc⟩
    | some m => exact ⟨_, exec_lookup_of_glyph s hc⟩
  | setdigit k c =>
    cases hlife : s.life with
    | unconstructed => exact ⟨_, exec_setdigit_of_unconstructed hlife k c⟩
    | constructed cfg buf => exact ⟨_, exec_setdigit_of_constructed hlife⟩
  | setseg k g =>
    cases hlife : s.life with
    | unconstructed => exact ⟨_, exec_setseg_of_unconstructed hlife k g⟩
    | constructed cfg buf =>
      rcases Nat.lt_or_ge k cfg.digits with hk | hk
      · rcases Nat.lt_or_ge g 8 with hg | hg
        · exact ⟨_, exec_setseg_of_in_range hlife hk hg⟩
        · exact ⟨_, exec_setseg_of_segment_out hlife hk hg⟩
      · exact ⟨_, exec_setseg_of_index_out hlife hk⟩
  | setcomma k =>
    cases hlife : s.life with
    | unconstructed => exact ⟨_, exec_setcomma_of_unconstructed hlife k⟩
    | constructed cfg buf => exact ⟨_, exec_setcomma_of_constructed hlife⟩
  | setstr text =>
    cases hlife : s.life with
    | unconstructed => exact ⟨_, exec_setstr_of_unconstructed hlife text⟩
    | constructed cfg buf =>
      cases hcheck : textCheck cfg.digits text with
      | none => exact ⟨_, exec_setstr_of_check_passes hlife hcheck⟩
      | some failure => exact ⟨_, exec_setstr_of_check_fails hlife hcheck⟩
  | refresh => cases hi
  | config pol on dly digs segs => cases hi

/-- The writer's CONFIG or REFRESH is refused (R80). -/
theorem exec_of_writer (hturn : s.turn = .writer) (hi : bufferCommand i = false) :
    exec i s = .refused .writerCommand := by
  cases i with
  | refresh => simp only [exec, execRefresh, hturn]
  | config pol on dly digs segs => simp only [exec, execConfig, hturn]
  | _ => cases hi

/-- The caller's REFRESH goes on. -/
theorem exec_refresh_next (hturn : s.turn = .caller) : ∃ t, exec .refresh s = .next t := by
  cases hlife : s.life with
  | unconstructed => exact ⟨_, exec_refresh_of_unconstructed hlife hturn⟩
  | constructed cfg buf => exact ⟨_, exec_refresh_of_constructed hturn hlife⟩

variable {pol : BitVec 2} {on dly : Int} {digs segs : List Nat}

/-- A CONFIG that passes its checks is refused for a line that the backend does not accept or another block holds. -/
theorem exec_config_of_line_refused (hturn : s.turn = .caller) (hlife : s.life = .unconstructed)
    (hcheck : configCheck s.config.maxDigits pol on dly digs segs = none)
    (hline : ∃ l ∈ digs ++ segs, s.config.lineCount ≤ l ∨ l ∈ s.config.heldElsewhere) :
    ∃ r, exec (.config pol on dly digs segs) s = .refused r := by
  obtain ⟨l, hl, hbad⟩ := hline
  simp only [exec, execConfig, hturn, hlife, hcheck]
  split
  · exact ⟨_, rfl⟩
  · rename_i hcount
    have hheld : (digs ++ segs).any (fun l => s.config.heldElsewhere.contains l) = true := by
      refine List.any_eq_true.mpr ⟨l, hl, List.contains_iff_mem.mpr (hbad.resolve_left fun hle => hcount ?_)⟩
      exact List.any_eq_true.mpr ⟨l, hl, decide_eq_true hle⟩
    rw [if_pos hheld]
    exact ⟨_, rfl⟩

/-- The caller's CONFIG goes on where it lists no line that it may not claim. -/
theorem exec_config_next (hturn : s.turn = .caller)
    (h : ¬(s.life = .unconstructed ∧ configCheck s.config.maxDigits pol on dly digs segs = none ∧
      ∃ l ∈ digs ++ segs, s.config.lineCount ≤ l ∨ l ∈ s.config.heldElsewhere)) :
    ∃ t, exec (.config pol on dly digs segs) s = .next t := by
  cases hlife : s.life with
  | constructed cfg buf => exact ⟨_, exec_config_of_constructed hturn hlife⟩
  | unconstructed =>
    cases hcheck : configCheck s.config.maxDigits pol on dly digs segs with
    | some k => exact ⟨_, exec_config_of_check_fails hturn hlife hcheck⟩
    | none =>
      refine ⟨_, exec_config_of_check_passes hturn hlife hcheck fun l hl => ?_⟩
      exact ⟨Nat.lt_of_not_le fun hle => h ⟨hlife, hcheck, l, hl, .inl hle⟩,
        fun hheld => h ⟨hlife, hcheck, l, hl, .inr hheld⟩⟩

/-- The commands that the model declines (R80, R189, R335). -/
def Declined (i : Instr) (s : State) : Prop :=
  (s.turn = .writer ∧ bufferCommand i = false) ∨
    ∃ pol on dly digs segs, i = .config pol on dly digs segs ∧ s.turn = .caller ∧ s.life = .unconstructed ∧
      configCheck s.config.maxDigits pol on dly digs segs = none ∧
      ∃ l ∈ digs ++ segs, s.config.lineCount ≤ l ∨ l ∈ s.config.heldElsewhere

theorem exec_of_declined (h : Declined i s) : ∃ r, exec i s = .refused r := by
  obtain ⟨hturn, hi⟩ | ⟨pol, on, dly, digs, segs, rfl, hturn, hlife, hcheck, hline⟩ := h
  · exact ⟨_, exec_of_writer hturn hi⟩
  · exact exec_config_of_line_refused hturn hlife hcheck hline

theorem exec_of_not_declined (h : ¬ Declined i s) : ∃ t, exec i s = .next t := by
  cases hi : bufferCommand i with
  | true => exact exec_buffer_next hi
  | false =>
    have hturn : s.turn = .caller := by
      cases hturn : s.turn with
      | caller => rfl
      | writer => exact (h (.inl ⟨hturn, hi⟩)).elim
    cases i with
    | refresh => exact exec_refresh_next hturn
    | config pol on dly digs segs =>
      exact exec_config_next hturn fun hrefused => h (.inr ⟨pol, on, dly, digs, segs, rfl, hturn, hrefused⟩)
    | _ => cases hi
end

/-- Settles O37: a command that is not declined goes on. -/
theorem refusalsExactly : Obligations.RefusalsExactly := by
  unfold Obligations.RefusalsExactly
  refine fun i s => ⟨fun ⟨r, hr⟩ => ?_, exec_of_declined⟩
  by_contra hnot
  obtain ⟨t, ht⟩ := exec_of_not_declined hnot
  rw [ht] at hr; cases hr

/-- No command faults: it is declined or goes on (R322). -/
theorem exec_ne_fault (i : Instr) (s : State) (r : Fault) : exec i s ≠ .fault r := by
  intro h
  by_cases hdeclined : Declined i s
  · obtain ⟨r', hr⟩ := exec_of_declined hdeclined
    rw [hr] at h; cases h
  · obtain ⟨t, ht⟩ := exec_of_not_declined hdeclined
    rw [ht] at h; cases h

/-! ### The lines and the claims are those of the trace (R50) -/

/-- Both sparse memories are in canonical form and are the functions of the trace that R50 says they are. -/
structure State.LinesOfTrace (s : State) : Prop where
  levelsCanonical : s.lvl.wf
  claimsCanonical : LineSet.wf s.claimed
  levelsOfTrace : s.lvl = levelsOf s.trace
  claimsOfTrace : s.claimed = claimedOf s.trace

namespace State.LinesOfTrace

variable {s t : State}

theorem congr (h : s.LinesOfTrace) (hlvl : t.lvl = s.lvl) (hclaimed : t.claimed = s.claimed)
    (hcalls : callsOf t.trace = callsOf s.trace) : t.LinesOfTrace where
  levelsCanonical := hlvl ▸ h.levelsCanonical
  claimsCanonical := hclaimed ▸ h.claimsCanonical
  levelsOfTrace := by rw [hlvl, h.levelsOfTrace, ← levelsOf_callsOf, ← hcalls, levelsOf_callsOf]
  claimsOfTrace := by rw [hclaimed, h.claimsOfTrace, ← claimedOf_callsOf, ← hcalls, claimedOf_callsOf]

theorem emit (h : s.LinesOfTrace) (e : Event) : (s.emit e).LinesOfTrace where
  levelsCanonical := e.levels_wf h.levelsCanonical
  claimsCanonical := e.claims_wf h.claimsCanonical
  levelsOfTrace := by
    rw [State.emit_lvl, State.emit_trace, levelsOf_append, h.levelsOfTrace]
    rfl
  claimsOfTrace := by
    rw [State.emit_claimed, State.emit_trace, claimedOf_append, h.claimsOfTrace]
    rfl

theorem emitAll (h : s.LinesOfTrace) (es : List Event) : (s.emitAll es).LinesOfTrace := by
  induction es generalizing s with
  | nil => exact h
  | cons e es ih => exact ih (h.emit e)

theorem advance (h : s.LinesOfTrace) (f : Fsm) : (s.advance f).LinesOfTrace := by
  cases f with
  | idle =>
    have hidle : State.LinesOfTrace { s with fsm := .idle } := h.congr rfl rfl rfl
    exact hidle.emit _
  | busy d p => exact h.congr rfl rfl rfl

theorem construct_answer (h : s.LinesOfTrace) (cfg : Cfg) : ((s.construct cfg).answer 0).LinesOfTrace := by
  have hconstruct : (s.construct cfg).LinesOfTrace := (h.emitAll (configCalls cfg)).congr rfl rfl rfl
  exact hconstruct.emit _

end State.LinesOfTrace

section
variable {s t : State}

theorem State.Inv.linesOfTrace (h : s.Inv) : s.LinesOfTrace :=
  ⟨h.levelsCanonical, h.claimsCanonical, h.levelsOfTrace, h.claimsOfTrace⟩

theorem State.LinesOfTrace.inv (h : t.LinesOfTrace) (hconfig : t.config.Legal) (hlife : t.LifecycleRule) : t.Inv :=
  ⟨hconfig, h.levelsCanonical, h.claimsCanonical, h.levelsOfTrace, h.claimsOfTrace, hlife⟩

/-! ### The lifecycle rule (R30 to R45, R242) -/

/-- The places at which an agent may stand inside a command: none before CONFIG, and after it those that write only
entries of the buffer. -/
def Life.Admits : Life → Task → Prop
  | .unconstructed, task => task = .none
  | .constructed cfg _, task => task.InRange cfg.digits

theorem Life.admits_none (life : Life) : life.Admits .none := by
  cases life
  · rfl
  · trivial

/-- What the lifecycle says of a constructed block. -/
structure State.ConstructedRule (s : State) (cfg : Cfg) (buf : List Byte) : Prop where
  legal : cfg.Legal s.config
  length : buf.length = cfg.digits
  claimed : s.claimed = LineSet.ofList cfg.lines
  fsm : s.fsm.InRange cfg.digits
  callerTask : s.callerTask.InRange cfg.digits
  writerTask : s.writerTask.InRange cfg.digits
  pass : s.fsm ≠ .idle → s.callerTask = .none

theorem State.lifecycleRule_of_constructed {cfg : Cfg} {buf : List Byte} (hlife : s.life = .constructed cfg buf) :
    s.LifecycleRule ↔ s.ConstructedRule cfg buf := by
  simp only [State.LifecycleRule, hlife]
  exact ⟨fun ⟨legal, length, claimed, fsm, callerTask, writerTask, pass⟩ =>
    ⟨legal, length, claimed, fsm, callerTask, writerTask, pass⟩,
    fun ⟨legal, length, claimed, fsm, callerTask, writerTask, pass⟩ =>
    ⟨legal, length, claimed, fsm, callerTask, writerTask, pass⟩⟩

theorem State.lifecycleRule_of_unconstructed (hlife : s.life = .unconstructed) :
    s.LifecycleRule ↔ s.fsm = .idle ∧ s.callerTask = .none ∧ s.writerTask = .none ∧ callsOf s.trace = [] := by
  simp only [State.LifecycleRule, hlife]

/-- The two agents are the one that moves and the other. -/
theorem State.forall_tasks_iff (P : Task → Prop) :
    P s.callerTask ∧ P s.writerTask ↔ P s.task ∧ P s.otherTask := by
  unfold State.task State.otherTask
  cases s.turn
  · exact Iff.rfl
  · exact And.comm

theorem State.LifecycleRule.admits (h : s.LifecycleRule) : s.life.Admits s.task ∧ s.life.Admits s.otherTask := by
  rw [← State.forall_tasks_iff]
  cases hlife : s.life with
  | unconstructed =>
    obtain ⟨-, hcaller, hwriter, -⟩ := (State.lifecycleRule_of_unconstructed hlife).mp h
    exact ⟨hcaller, hwriter⟩
  | constructed cfg buf =>
    have hrule := (State.lifecycleRule_of_constructed hlife).mp h
    exact ⟨hrule.callerTask, hrule.writerTask⟩

/-- The ports, the turn and the schedule are not in the invariant. -/
theorem PortsFrame.inv {u : State} (hu : PortsFrame s u) (h : s.Inv) : u.Inv := by
  refine (h.linesOfTrace.congr hu.lvl hu.claimed (by rw [hu.trace])).inv (hu.config ▸ h.legalConfig) ?_
  have hrule := h.lifecycle
  unfold State.LifecycleRule at hrule ⊢
  simpa only [hu.life, hu.fsm, hu.callerTask, hu.writerTask, hu.trace, hu.config, hu.claimed] using hrule

/-- A block in a pass is constructed, and the pass names a digit of it (R45). -/
theorem State.Inv.digit_of_pass {d : Nat} {p : Phase} (h : s.Inv) (hpass : s.pass = .busy d p) :
    ∃ cfg buf l, s.life = .constructed cfg buf ∧ cfg.dig[d]? = some l := by
  have hfsm := State.fsm_of_pass_busy hpass
  cases hlife : s.life with
  | unconstructed =>
    obtain ⟨hidle, -⟩ := (State.lifecycleRule_of_unconstructed hlife).mp h.lifecycle
    rw [hidle] at hfsm; cases hfsm
  | constructed cfg buf =>
    have hrange := ((State.lifecycleRule_of_constructed hlife).mp h.lifecycle).fsm
    rw [hfsm] at hrange
    exact ⟨cfg, buf, _, rfl, List.getElem?_eq_getElem hrange⟩
end

/-- Settles O54: only a phase can fault, and the digit of a pass exists. -/
theorem noStepFaults : Obligations.NoStepFaults := by
  unfold Obligations.NoStepFaults
  intro s r hinv h
  replace hinv := s.beginTurn_portsFrame.inv hinv
  cases hpass : s.beginTurn.pass with
  | busy d p =>
    obtain ⟨cfg, buf, l, hlife, hl⟩ := hinv.digit_of_pass hpass
    rw [step_of_pass_busy hpass, runPhase_eq hlife hl] at h
    cases h
  | idle =>
    by_cases htask : s.beginTurn.task = .none
    · cases hdecode : decode s.beginTurn.pending with
      | incomplete => rw [step_of_incomplete hpass htask hdecode] at h; cases h
      | illegal op rest => rw [step_illegal hpass htask hdecode] at h; cases h
      | command i rest => rw [step_of_command hpass htask hdecode] at h; exact exec_ne_fault i _ r h
    · rw [step_of_task hpass htask] at h; cases h

/-! ### Every move keeps the invariant -/

section
variable {s t : State}

/-- A phase keeps the invariant: the state machine goes on to a phase of a digit, or to IDLE (R273). -/
theorem State.Inv.phase {d : Nat} {p : Phase} (h : s.Inv) (hpass : s.pass = .busy d p)
    (hphase : runPhase d p s = .next t) : t.Inv := by
  obtain ⟨cfg, buf, l, hlife, hl, rfl⟩ := runPhase_cases hphase
  have hrule := (State.lifecycleRule_of_constructed hlife).mp h.lifecycle
  have hbusy : s.fsm ≠ .idle := by rw [State.fsm_of_pass_busy hpass]; nofun
  have hd : d < cfg.digits := index_lt_of_getElem? hl
  refine ((h.linesOfTrace.emit _).advance _).inv (by simpa using h.legalConfig)
    ((State.lifecycleRule_of_constructed (by simpa using hlife)).mpr ?_)
  constructor
  case legal => simpa using hrule.legal
  case length => exact hrule.length
  case claimed => simpa using hrule.claimed
  case fsm =>
    rw [State.advance_fsm]
    cases p
    case holdDly => rw [nextFsm_holdDly]; split; exacts [‹_›, trivial]
    all_goals exact hd -- the next phase is of the same digit
  case callerTask => simpa using hrule.callerTask
  case writerTask => simpa using hrule.writerTask
  case pass => exact fun _ => by simpa using hrule.pass hbusy

/-- A move of a buffer command keeps the invariant if it leaves its agent where the lifecycle lets it stand. -/
theorem State.Inv.frame (h : s.Inv) (hpass : s.pass = .idle) (hframe : BufferFrame s t)
    (htask : s.life.Admits t.task) : t.Inv := by
  obtain ⟨-, hother⟩ := h.lifecycle.admits
  rw [← hframe.otherTask] at hother
  obtain ⟨hcaller, hwriter⟩ := (State.forall_tasks_iff s.life.Admits).mpr ⟨htask, hother⟩
  refine (h.linesOfTrace.congr hframe.lvl hframe.claimed hframe.calls).inv (hframe.config ▸ h.legalConfig) ?_
  cases hlife : s.life with
  | unconstructed =>
    obtain ⟨hidle, -, -, hcalls⟩ := (State.lifecycleRule_of_unconstructed hlife).mp h.lifecycle
    rw [hlife] at hcaller hwriter
    have hlife' : t.life = .unconstructed := by
      rw [← State.cfg?_eq_none_iff, hframe.cfg, State.cfg?_eq_none_iff, hlife]
    exact (State.lifecycleRule_of_unconstructed hlife').mpr
      ⟨hframe.fsm.trans hidle, hcaller, hwriter, hframe.calls.trans hcalls⟩
  | constructed cfg buf =>
    have hrule := (State.lifecycleRule_of_constructed hlife).mp h.lifecycle
    rw [hlife] at hcaller hwriter
    obtain ⟨buf', hlife', hlength⟩ := hframe.constructed hlife
    refine (State.lifecycleRule_of_constructed hlife').mpr ⟨hframe.config ▸ hrule.legal, hlength.trans hrule.length,
      hframe.claimed.trans hrule.claimed, hframe.fsm ▸ hrule.fsm, hcaller, hwriter, fun hbusy => ?_⟩
    rw [hframe.fsm] at hbusy
    cases hturn : s.turn with
    | caller => exact absurd ((State.pass_of_caller hturn).symm.trans hpass) hbusy
    | writer =>
      rw [← State.otherTask_of_writer (hframe.turn.trans hturn), hframe.otherTask, State.otherTask_of_writer hturn]
      exact hrule.pass hbusy

/-- The start of a pass keeps the invariant: the display has a digit 0 (R32). -/
theorem State.Inv.startPass {cfg : Cfg} {buf : List Byte} (h : s.Inv) (hlife : s.life = .constructed cfg buf)
    (hturn : s.turn = .caller) (htask : s.task = .none) : ({ s with fsm := .busy 0 .digOn } : State).Inv := by
  have hrule := (State.lifecycleRule_of_constructed hlife).mp h.lifecycle
  obtain ⟨hdigits, -⟩ := hrule.legal
  have hlines : State.LinesOfTrace { s with fsm := .busy 0 .digOn } := h.linesOfTrace.congr rfl rfl rfl
  refine hlines.inv h.legalConfig
    ((State.lifecycleRule_of_constructed (s := { s with fsm := .busy 0 .digOn }) hlife).mpr ?_)
  exact { hrule with fsm := hdigits, pass := fun _ => (State.task_of_caller hturn).symm.trans htask }

/-- What CONFIG's checks say of its operands (R181, R182). -/
theorem configCheck_eq_none {maxDigits : Nat} {pol : BitVec 2} {on dly : Int} {digs segs : List Nat}
    (h : configCheck maxDigits pol on dly digs segs = none) :
    segs.length = 8 ∧ 1 ≤ digs.length ∧ digs.length ≤ maxDigits := by
  unfold configCheck at h
  split at h
  · cases h
  · split at h
    · cases h
    · omega

/-- The configuration that a well-formed CONFIG leaves meets the bounds of R32 to R37 and R189. -/
theorem configOf_legal {config : Config} {pol : BitVec 2} {on dly : Int} {digs segs : List Nat}
    (hwf : (Instr.config pol on dly digs segs).wellFormed = true)
    (hcheck : configCheck config.maxDigits pol on dly digs segs = none)
    (hlines : ∀ l ∈ digs ++ segs, l < config.lineCount) : (configOf pol on dly digs segs).Legal config := by
  simp only [Instr.wellFormed, fitsSigned, Bool.and_eq_true, decide_eq_true_eq] at hwf
  obtain ⟨⟨⟨⟨⟨⟨-, hon⟩, -, hdly⟩, -⟩, -⟩, -⟩, -⟩ := hwf
  obtain ⟨hsegs, hone, hmax⟩ := configCheck_eq_none hcheck
  exact ⟨hone, hmax, hsegs, show on.toNat < 2 ^ 31 by omega, show dly.toNat < 2 ^ 31 by omega, hlines⟩

/-- A construction meets the invariant: before it no line is claimed and no command is in progress (R31, R42). -/
theorem State.Inv.construct {cfg : Cfg} (h : s.Inv) (hlife : s.life = .unconstructed) (hlegal : cfg.Legal s.config) :
    ((s.construct cfg).answer 0).Inv := by
  obtain ⟨-, hcaller, hwriter, hcalls⟩ := (State.lifecycleRule_of_unconstructed hlife).mp h.lifecycle
  have hclaimed : s.claimed = [] := by rw [h.claimsOfTrace, ← claimedOf_callsOf, hcalls]; rfl
  have hlines := h.linesOfTrace.construct_answer cfg
  rw [State.construct_answer] at hlines ⊢
  refine hlines.inv h.legalConfig ((State.lifecycleRule_of_constructed rfl).mpr ?_)
  constructor
  case legal => exact hlegal
  case length => exact List.length_replicate
  case claimed => show List.foldl _ s.claimed _ = _; rw [claims_configCalls, hclaimed]; rfl
  case fsm => trivial
  case callerTask => show s.callerTask.InRange _; rw [hcaller]; trivial
  case writerTask => show s.writerTask.InRange _; rw [hwriter]; trivial
  case pass => exact fun _ => hcaller

/-- A buffer command leaves its agent where the lifecycle lets it stand. -/
theorem exec_buffer_admits {i : Instr} (hi : bufferCommand i = true) (htask : s.task = .none)
    (h : exec i s = .next t) : s.life.Admits t.task := by
  have hnone : s.life.Admits s.task := htask ▸ Life.admits_none s.life
  obtain ⟨e, d, v, rfl⟩ | ⟨cfg, buf, hlife, hstarts⟩ := exec_buffer_cases hi h
  · exact hnone
  · rw [hlife] at hnone ⊢
    obtain ⟨k, m, -, -, rfl⟩ | ⟨k, g, -, hk, hg, rfl⟩ | ⟨text, -, hcheck, rfl⟩ := hstarts
    · simpa using hnone
    · have hrange : (s.setTask (.segWrite k g (s.bufRead k))).task.InRange cfg.digits := by
        rw [State.setTask_task]; exact ⟨hk, hg⟩
      obtain ⟨hsettled, -⟩ := State.settle_inRange hrange
      exact hsettled
    · have hfits := textChars_fit_of_textCheck hcheck
      have hrange : (s.startRender 0 (textChars text) (textDots text)).task.InRange cfg.digits :=
        State.startRender_inRange (by omega) fun d hd => Nat.lt_of_lt_of_le (textDots_lt hd) hfits
      obtain ⟨hsettled, -⟩ := State.settle_inRange hrange
      exact hsettled

/-- A well-formed command keeps the invariant. -/
theorem State.Inv.exec {i : Instr} (h : s.Inv) (hpass : s.pass = .idle) (htask : s.task = .none)
    (hwf : i.wellFormed = true) (hexec : exec i s = .next t) : t.Inv := by
  cases hi : bufferCommand i with
  | true => exact h.frame hpass (exec_buffer_frame hi hexec) (exec_buffer_admits hi htask hexec)
  | false =>
    have hraise (e : Status) (v : Value) : (s.raise e v).Inv :=
      h.frame hpass (s.raise_frame e v) (htask ▸ Life.admits_none s.life)
    cases i with
    | refresh =>
      obtain ⟨hturn, ⟨-, rfl⟩ | ⟨cfg, buf, hlife, rfl⟩⟩ := execRefresh_cases hexec
      · exact hraise _ _
      · exact h.startPass hlife hturn htask
    | config pol on dly digs segs =>
      obtain ⟨-, ⟨e, v, rfl⟩ | ⟨hlife, hcheck, hlines, rfl⟩⟩ := execConfig_cases hexec
      · exact hraise _ _
      · exact h.construct hlife (configOf_legal hwf hcheck fun l hl => (hlines l hl).1)
    | _ => cases hi

/-- An atomic step of a command in progress keeps the invariant. -/
theorem State.Inv.resumeTask (h : s.Inv) (hpass : s.pass = .idle) (htask : s.task ≠ .none) : (resumeTask s).Inv := by
  refine h.frame hpass (resumeTask_frame s) ?_
  obtain ⟨hadmits, -⟩ := h.lifecycle.admits
  cases hlife : s.life with
  | unconstructed => rw [hlife] at hadmits; exact absurd hadmits htask
  | constructed cfg buf =>
    rw [hlife] at hadmits
    obtain ⟨hrange, -⟩ := resumeTask_inRange hadmits
    exact hrange
end

/-- Settles O52: the invariant asks nothing of the ports and the turn, and each of the five moves keeps it. -/
theorem stepKeepsInvariant : Obligations.StepKeepsInvariant := by
  unfold Obligations.StepKeepsInvariant
  intro s t hinv h
  obtain ⟨u, hu, hmove⟩ := step_moves h
  replace hinv := hu.inv hinv
  obtain ⟨d, p, hpass, hphase⟩ | ⟨hpass, htask, rfl⟩ | ⟨-, -, rfl⟩ | ⟨hpass, htask, e, v, rfl⟩ |
    ⟨hpass, htask, i, hwf, hexec⟩ := hmove
  · exact hinv.phase hpass hphase
  · exact hinv.resumeTask hpass htask
  · exact hinv
  · exact hinv.frame hpass (u.raise_frame e v) (htask ▸ Life.admits_none u.life)
  · exact hinv.exec hpass htask hwf hexec

/-- Settles O51: every field of the reset state is empty. -/
theorem resetMeetsInvariants : Obligations.ResetMeetsInvariants := by
  unfold Obligations.ResetMeetsInvariants
  refine ⟨⟨by decide, ⟨.nil, nofun⟩, .nil, rfl, rfl, ⟨rfl, rfl, rfl, rfl⟩⟩, trivial⟩

end Sys2Proof.Machine
end
